-- ==== Sys2Proof/Word.lean ====
section
/-! DEFINITION. The two word types of the machine (spec/00_scope.md R4, R6). -/

namespace Sys2Proof

/-- A register, a memory cell, an operand byte, an address or the pc: an unsigned 8-bit value (R4, R6).
`+`, `-` and `*` on it are the spec's `+8`, `-8` and `*8`. -/
abbrev Byte := BitVec 8

/-- The index of one of the eight general registers (R4, R9). -/
abbrev RegIndex := Fin 8

end Sys2Proof
end

