-- ==== Sys2Proof/Config.lean ====
section
/-! DEFINITION. What an implementation fixes: the configuration of spec/00_scope.md R5, which every rule
takes as an argument and which is no state (R22). The default values stand in Machine/Parameters.lean. -/

namespace Sys2Proof

/-- The twelve mnemonics, in the order of the opcode table (R41). -/
inductive Mnemonic where
  | ldi | prn | pra | mul | add | push | pop | cmp | jmp | jeq | jne | hlt
deriving DecidableEq, Repr

/-- Every mnemonic once, in table order (R41). -/
def Mnemonic.all : List Mnemonic :=
  [.ldi, .prn, .pra, .mul, .add, .push, .pop, .cmp, .jmp, .jeq, .jne, .hlt]

/-- The "Operands" column of R40: how many operand bytes follow the opcode. -/
def Mnemonic.operandCount : Mnemonic → Nat
  | .hlt => 0
  | .prn | .pra | .push | .pop | .jmp | .jeq | .jne => 1
  | .ldi | .mul | .add | .cmp => 2

/-- The "Sets PC" column of R40: the instruction's own rule assigns the pc. -/
def Mnemonic.setsPc : Mnemonic → Bool
  | .jmp | .jeq | .jne => true
  | .ldi | .prn | .pra | .mul | .add | .push | .pop | .cmp | .hlt => false

/-- The parameter `OPC` (R5): the opcode byte of each mnemonic. -/
structure OpcodeMap where
  ldi : Byte
  prn : Byte
  pra : Byte
  mul : Byte
  add : Byte
  push : Byte
  pop : Byte
  cmp : Byte
  jmp : Byte
  jeq : Byte
  jne : Byte
  hlt : Byte
deriving DecidableEq, Repr

/-- The byte `OPC` assigns to a mnemonic. -/
def OpcodeMap.byte (m : OpcodeMap) : Mnemonic → Byte
  | .ldi => m.ldi
  | .prn => m.prn
  | .pra => m.pra
  | .mul => m.mul
  | .add => m.add
  | .push => m.push
  | .pop => m.pop
  | .cmp => m.cmp
  | .jmp => m.jmp
  | .jeq => m.jeq
  | .jne => m.jne
  | .hlt => m.hlt

/-- The parameter `REG_INDEX_POLICY` (R5): what an operand byte above 7 does as a register index (R46). -/
inductive RegIndexPolicy where
  /-- raise `RegisterIndexOutOfRange` (R84) -/
  | fault
  /-- use the low three bits -/
  | mask3
deriving DecidableEq, Repr

/-- The configuration fields of R5. -/
structure Config where
  /-- `OPC` -/
  opc : OpcodeMap
  /-- `SP_INDEX`, the register used as stack pointer (R10) -/
  spIndex : RegIndex
  /-- `STACK_EMPTY_ADDR`, the stack pointer after reset (R21) -/
  stackEmptyAddr : Byte
  /-- `PROGRAM_BASE`, where a loaded image's first byte goes (R30, R98) -/
  programBase : Byte
  /-- `REG_INDEX_POLICY` -/
  regIndexPolicy : RegIndexPolicy
deriving DecidableEq, Repr

end Sys2Proof
end

