-- ==== Sys2Proof/Machine/Parameters.lean ====
section
/-! DEFINITION. The default values of the configuration (spec/00_scope.md R5, spec/30_encoding.md R41).
They stand apart from their type so that a value that proves wrong can be mended. -/

namespace Sys2Proof.Machine

/-- The default `OPC` (R41). PRESUMED (log 1): the LS-8 family's bytes, which the spec takes from general
knowledge (D1, GK1). Unsafe for claims about concrete byte images. -/
def defaultOpcodes : OpcodeMap where
  ldi := 0b10000010#8
  prn := 0b01000111#8
  pra := 0b01001000#8
  mul := 0b10100010#8
  add := 0b10100000#8
  push := 0b01000101#8
  pop := 0b01000110#8
  cmp := 0b10100111#8
  jmp := 0b01010100#8
  jeq := 0b01010101#8
  jne := 0b01010110#8
  hlt := 0b00000001#8

/-- The default configuration (R5). PRESUMED (log 1, log 2): `OPC`, `SP_INDEX` 7 and `STACK_EMPTY_ADDR`
0xF4 are the LS-8 family's. DESIGN CHOICE (log 3, log 4): `PROGRAM_BASE` 0 and the policy `fault` are the
spec's own defaults (D5, D6). -/
def cfg : Config where
  opc := defaultOpcodes
  spIndex := 7
  stackEmptyAddr := 0xF4#8
  programBase := 0#8
  regIndexPolicy := .fault

end Sys2Proof.Machine
end

