-- ==== Sys2Proof/Syntax.lean ====
section
/-! DEFINITION. The instruction set as syntax: one constructor per row of spec/opcode_table.json
(spec/30_encoding.md R39, R41, R44). -/

namespace Sys2Proof

/-- An instruction with its operand bytes as they stand in memory (R44). A byte in a register position is
kept whole, not cut to an index: `Reg` (R46) resolves it when the instruction executes, and the fault latch
records the byte itself (R17). -/
inductive Instr where
  /-- R63: load the literal `imm` into register `rd`. -/
  | ldi (rd imm : Byte)
  /-- R64: output register `rs` as a number. -/
  | prn (rs : Byte)
  /-- R65: output register `rs` as a character. -/
  | pra (rs : Byte)
  /-- R68: `ra` becomes the low byte of `ra * rb`. -/
  | mul (ra rb : Byte)
  /-- R69: `ra` becomes the low byte of `ra + rb`. -/
  | add (ra rb : Byte)
  /-- R73: push register `rs`. -/
  | push (rs : Byte)
  /-- R74: pop into register `rd`. -/
  | pop (rd : Byte)
  /-- R76: record in FL whether `ra` and `rb` are equal. -/
  | cmp (ra rb : Byte)
  /-- R77: jump to the address in register `rt`. -/
  | jmp (rt : Byte)
  /-- R78: jump to the address in register `rt` if FL is 1. -/
  | jeq (rt : Byte)
  /-- R79: jump to the address in register `rt` if FL is 0. -/
  | jne (rt : Byte)
  /-- R81: stop. -/
  | hlt
deriving DecidableEq, Repr

/-- The mnemonic of an instruction. -/
def Instr.mnemonic : Instr → Mnemonic
  | .ldi _ _ => .ldi
  | .prn _ => .prn
  | .pra _ => .pra
  | .mul _ _ => .mul
  | .add _ _ => .add
  | .push _ => .push
  | .pop _ => .pop
  | .cmp _ _ => .cmp
  | .jmp _ => .jmp
  | .jeq _ => .jeq
  | .jne _ => .jne
  | .hlt => .hlt

/-- The operand bytes in a register position, in the order they are resolved (R44, R87). -/
def Instr.registerOperands : Instr → List Byte
  | .ldi rd _ => [rd]
  | .mul ra rb | .add ra rb | .cmp ra rb => [ra, rb]
  | .prn r | .pra r | .push r | .pop r | .jmp r | .jeq r | .jne r => [r]
  | .hlt => []

/-- The instruction with every byte in a register position replaced by `f` of it. -/
def Instr.mapRegisterOperands (f : Byte → Byte) : Instr → Instr
  | .ldi rd imm => .ldi (f rd) imm
  | .prn rs => .prn (f rs)
  | .pra rs => .pra (f rs)
  | .mul ra rb => .mul (f ra) (f rb)
  | .add ra rb => .add (f ra) (f rb)
  | .push rs => .push (f rs)
  | .pop rd => .pop (f rd)
  | .cmp ra rb => .cmp (f ra) (f rb)
  | .jmp rt => .jmp (f rt)
  | .jeq rt => .jeq (f rt)
  | .jne rt => .jne (f rt)
  | .hlt => .hlt

/-- The name in capitals, as assembly text has it (R51). -/
def Mnemonic.text : Mnemonic → String
  | .ldi => "LDI"
  | .prn => "PRN"
  | .pra => "PRA"
  | .mul => "MUL"
  | .add => "ADD"
  | .push => "PUSH"
  | .pop => "POP"
  | .cmp => "CMP"
  | .jmp => "JMP"
  | .jeq => "JEQ"
  | .jne => "JNE"
  | .hlt => "HLT"

/-- A register operand in assembly text: `Rn`, or `<n>` for a byte that names no register
(R51, and spec/95_test_vectors.md P9 for the second form). -/
def registerText (b : Byte) : String :=
  if b.toNat < 8 then "R" ++ toString b.toNat else "<" ++ toString b.toNat ++ ">"

/-- An instruction as the spec writes it: mnemonic, then the operands, an immediate in decimal (R51). -/
def Instr.assembly (i : Instr) : String :=
  match i with
  | .ldi rd imm => i.mnemonic.text ++ " " ++ registerText rd ++ ", " ++ toString imm.toNat
  | .mul ra rb | .add ra rb | .cmp ra rb =>
    i.mnemonic.text ++ " " ++ registerText ra ++ ", " ++ registerText rb
  | .prn r | .pra r | .push r | .pop r | .jmp r | .jeq r | .jne r =>
    i.mnemonic.text ++ " " ++ registerText r
  | .hlt => i.mnemonic.text

end Sys2Proof
end

