-- ==== Sys2Proof/WellFormed.lean ====
section
/-! DEFINITION. When an instruction is well formed: every register operand names a register
(spec/30_encoding.md R44, R46). -/

namespace Sys2Proof

/-- An operand byte that names a register as it stands: the first line of `Reg` (R46). -/
def namesRegister (b : Byte) : Bool := b.toNat < 8

/-- Every byte in a register position is 0 to 7. A literal (R45) is never restricted. An instruction that
is not well formed still decodes and executes: its rule raises, or masks, as R46 says. -/
def Instr.wellFormed (i : Instr) : Bool := i.registerOperands.all namesRegister

end Sys2Proof
end

