-- ==== Sys2Proof/Decode.lean ====
section
/-! DEFINITION. The opcode byte's fields, the decoder and the encoder (spec/30_encoding.md). -/

namespace Sys2Proof

/-- `NN`, IR[7:6], read as a plain 2-bit number (R39, R50). -/
def operandCountField (ir : Byte) : BitVec 2 := ir.extractLsb' 6 2

/-- `C`, IR[4] (R39, R56). -/
def setsPcBit (ir : Byte) : Bool := ir.getLsbD 4

/-- The constraint on the parameter `OPC` (R5, R40): twelve distinct bytes, in each of which the two
fields say the operand count and the sets-PC column of its mnemonic. -/
abbrev OpcodeMap.Valid (m : OpcodeMap) : Prop :=
  (Mnemonic.all.map m.byte).Nodup ∧
    ∀ k ∈ Mnemonic.all,
      (operandCountField (m.byte k)).toNat = k.operandCount ∧ setsPcBit (m.byte k) = k.setsPc

/-- The three bytes a step fetches (R19, R54, R55). They are dead at the end of the step, so they are no
part of State. -/
structure Latches where
  ir : Byte
  operandA : Byte
  operandB : Byte
deriving DecidableEq, Repr

/-- Why the decoder rejects. -/
inductive DecodeError where
  /-- The opcode byte is none of the twelve (R47). The sequencer raises `UnknownOpcode` for it (R82). -/
  | unknownOpcode (ir : Byte)
deriving DecidableEq, Repr

/-- Dispatch on the whole opcode byte (R42): the fields do not select the instruction. -/
def OpcodeMap.lookup (m : OpcodeMap) (ir : Byte) : Option Mnemonic :=
  Mnemonic.all.find? (fun k => m.byte k == ir)

/-- The instruction of a mnemonic with the operand latches; latches it does not use are ignored (R44). -/
def instrOf (k : Mnemonic) (a b : Byte) : Instr :=
  match k with
  | .ldi => .ldi a b
  | .prn => .prn a
  | .pra => .pra a
  | .mul => .mul a b
  | .add => .add a b
  | .push => .push a
  | .pop => .pop a
  | .cmp => .cmp a b
  | .jmp => .jmp a
  | .jeq => .jeq a
  | .jne => .jne a
  | .hlt => .hlt

/-- The decoder (R42): total on any three bytes; a byte that is no opcode is rejected by name (R47). -/
def decode (m : OpcodeMap) (l : Latches) : Except DecodeError Instr :=
  match m.lookup l.ir with
  | some k => .ok (instrOf k l.operandA l.operandB)
  | none => .error (.unknownOpcode l.ir)

/-- The operand bytes in memory order: operandA, then operandB (R39, R44). -/
def Instr.operands : Instr → List Byte
  | .ldi rd imm => [rd, imm]
  | .mul ra rb | .add ra rb | .cmp ra rb => [ra, rb]
  | .prn r | .pra r | .push r | .pop r | .jmp r | .jeq r | .jne r => [r]
  | .hlt => []

/-- The bytes of an instruction at ascending addresses: the opcode, then the operands (R27, R39). -/
def encode (m : OpcodeMap) (i : Instr) : List Byte := m.byte i.mnemonic :: i.operands

/-- The length of an instruction in bytes, from the opcode byte alone (R43). -/
def lengthFromOpcode (ir : Byte) : Nat := (operandCountField ir).toNat + 1

/-- The bytes of a table word as the latches hold them: byte 0 is bits 7:0, byte 1 bits 15:8, byte 2 bits
23:16; bits from `nbits` up are 0. -/
def tableLatches (nbits w : Nat) : Latches where
  ir := BitVec.ofNat 8 (w % 2 ^ nbits)
  operandA := BitVec.ofNat 8 (w % 2 ^ nbits / 2 ^ 8)
  operandB := BitVec.ofNat 8 (w % 2 ^ nbits / 2 ^ 16)

/-- The instruction the decoder reads from a table word, under the default `OPC`. -/
def decodeTableWord (nbits w : Nat) : Option Instr :=
  match decode Machine.cfg.opc (tableLatches nbits w) with
  | .ok i => some i
  | .error _ => none

end Sys2Proof
end

