-- ==== Sys2Proof/Machine/State.lean ====
section
/-! DEFINITION. The machine's state, the whole of the tuple of spec/10_state.md section 1, and its reset
value (R21, R96). Plain data. -/

namespace Sys2Proof.Machine

/-- The run state (R16). -/
inductive RunState where
  | running
  | halted
  | faulted
deriving DecidableEq, Repr

/-- What the fault latch records (R17, R83): the cause, the address of the faulting instruction, its
opcode byte and, for the second, the offending operand byte. -/
inductive Cause where
  /-- R82. Raised by the sequencer on an opcode byte that is none of the twelve. -/
  | unknownOpcode (pc ir : Byte)
  /-- R84. Raised by `Reg` on an operand byte above 7 in a register position. -/
  | registerIndexOutOfRange (pc ir operand : Byte)
deriving DecidableEq, Repr

/-- Which instruction emitted an output event (R18). -/
inductive OutKind where
  | prn
  | pra
deriving DecidableEq, Repr

/-- One event of the output stream (R18). -/
structure OutEvent where
  kind : OutKind
  value : Byte
deriving DecidableEq, Repr

/-- The memory (R14), as (address, byte) pairs in one canonical form: see `Memory.wf` in Ops.lean. -/
abbrev Memory := List Host.Cell

/-- The state of the machine. R22 and R19 say what is not part of it. -/
structure State where
  /-- `x[0]` to `x[7]` (R9); the stack pointer is `x[SP_INDEX]` (R10) -/
  regs : Vector Byte 8
  /-- the program counter (R11) -/
  pc : Byte
  /-- the flag; `true` is 1 (R13) -/
  fl : Bool
  /-- the memory (R14) -/
  mem : Memory
  /-- the run state (R16) -/
  run : RunState
  /-- the fault latch (R17) -/
  fault : Option Cause
  /-- the output stream, oldest event first (R18) -/
  out : List OutEvent
deriving DecidableEq, Repr

/-- Reasons a step stops with a fault: none. Both exceptions of this hardware (R83) have an entry the spec
describes in full, so they are next states (see `State.raise`), and R85 says nothing else is an error. The
type is empty, so no step can answer a fault (safe: nothing is claimed through it). -/
inductive Fault where
deriving DecidableEq, Repr

/-- Reasons the model gives no meaning. -/
inductive Refusal where
  /-- Raised by no meaning: the form of an arm of `exec` not yet modelled; no arm has it. Safe. -/
  | notModelled (mnemonic : String)
  /-- Raised by `load` in HostPort.lean on an image of more than 256 bytes (R98, D11). Safe: no launch is
  built from it. -/
  | imageTooLong (length : Nat)
  /-- Raised by `serve` in HostPort.lean on a load after a step with no reset between (R98, R101, U9).
  Safe: the spec assumes the host never does it. -/
  | loadDuringRun
deriving DecidableEq, Repr

/-- Reset under a configuration (R21, R96). An empty memory list is 256 zero cells. -/
def State.resetIn (c : Config) : State where
  regs := (Vector.replicate 8 0#8).set c.spIndex.val c.stackEmptyAddr c.spIndex.isLt
  pc := 0#8
  fl := false
  mem := []
  run := .running
  fault := none
  out := []

/-- The machine right after reset, under the default configuration (R21, R96). -/
def State.reset : State := State.resetIn cfg

end Sys2Proof.Machine
end

