-- ==== Sys2Proof/Machine/Ops.lean ====
section
/-! DEFINITION. The named operations over memory, registers and the rest of the state; the fetch; the
stack primitives; taking an exception; the next-PC part of a step. -/

namespace Sys2Proof.Machine

/-! ## Memory -/

/-- What a cell that the list does not name holds: 0, the reset contents (R21, R25). -/
def Memory.unlisted : Byte := 0#8

/-- The canonical form: addresses strictly rising and below 256, no entry equal to an unlisted cell. -/
abbrev Memory.wf (m : Memory) : Prop :=
  m.Pairwise (fun e f => e.1 < f.1) ∧ ∀ e ∈ m, e.1 < 256 ∧ e.2 ≠ Memory.unlisted

/-- The content of the cell numbered `n`. -/
def Memory.readAt : Memory → Nat → Byte
  | [], _ => Memory.unlisted
  | e :: rest, n => if e.1 = n then e.2 else Memory.readAt rest n

/-- The list without the cell numbered `n`. -/
def Memory.erase (m : Memory) (n : Nat) : Memory := m.filter (fun e => e.1 != n)

/-- The list with an entry for a cell it does not name, in front of the first higher address. -/
def Memory.insertAt : Memory → Nat → Byte → Memory
  | [], n, v => [(n, v)]
  | e :: rest, n, v => if n < e.1 then (n, v) :: e :: rest else e :: Memory.insertAt rest n v

/-- Put `v` in the cell numbered `n`, keeping the canonical form: an unlisted cell's value is not listed. -/
def Memory.writeAt (m : Memory) (n : Nat) (v : Byte) : Memory :=
  if v = Memory.unlisted then m.erase n else (m.erase n).insertAt n v

/-- `MemRead(addr, 1)` (R25). An address is a byte, so it is already modulo 256 (R24). -/
def Memory.read (m : Memory) (addr : Byte) : Byte := Memory.readAt m addr.toNat

/-- `MemWrite(addr, 1, v)` (R26). -/
def Memory.write (m : Memory) (addr v : Byte) : Memory := Memory.writeAt m addr.toNat v

/-! ## The state's reads and writes -/

/-- `x[r]` (R9). -/
def State.reg (s : State) (r : RegIndex) : Byte := s.regs[r.val]

/-- `x[r] <- v` (R9). -/
def State.setReg (s : State) (r : RegIndex) (v : Byte) : State := { s with regs := s.regs.set r.val v r.isLt }

/-- `pc <- v` (R11). -/
def State.setPc (s : State) (v : Byte) : State := { s with pc := v }

/-- `FL <- b` (R13). -/
def State.setFl (s : State) (b : Bool) : State := { s with fl := b }

/-- `MemWrite` on the state (R26). -/
def State.store (s : State) (addr v : Byte) : State := { s with mem := s.mem.write addr v }

/-- `Emit(kind, v)` (R18). -/
def State.emit (s : State) (kind : OutKind) (v : Byte) : State := { s with out := s.out ++ [⟨kind, v⟩] }

/-- `run <- HALTED` (R81). -/
def State.halt (s : State) : State := { s with run := .halted }

/-- TAKING AN EXCEPTION (R82, R84, R88): latch the cause, stop the sequencer, change nothing else. No pc or
status is saved, no handler is entered. There is no return from an exception (R89): only `State.resetIn`
leaves FAULTED. DESIGN CHOICE of the spec (log 5: D6, D7). -/
def State.raise (s : State) (cause : Cause) : State := { s with fault := some cause, run := .faulted }

/-! ## The stack (R71, R72) -/

/-- `SP`: the register `x[SP_INDEX]` (R10). -/
def State.sp (c : Config) (s : State) : Byte := s.reg c.spIndex

/-- `SP <- v` (R10). -/
def State.setSp (c : Config) (s : State) (v : Byte) : State := s.setReg c.spIndex v

/-- `Push(v)` (R71): decrement, then store at the moved pointer. -/
def State.push (c : Config) (s : State) (v : Byte) : State :=
  let moved := s.setSp c (s.sp c - 1#8)
  moved.store (moved.sp c) v

/-- `Pop()` (R72): the byte loaded at the pointer, and the state with the pointer incremented. -/
def State.pop (c : Config) (s : State) : Byte × State :=
  (s.mem.read (s.sp c), s.setSp c (s.sp c + 1#8))

/-! ## Parts of a step -/

/-- Parts 1 and 2 of a step (R54, R55): the opcode byte and the two candidate operand bytes, always. -/
def State.fetch (s : State) : Latches where
  ir := s.mem.read s.pc
  operandA := s.mem.read (s.pc + 1#8)
  operandB := s.mem.read (s.pc + 2#8)

/-- Part 4 of a step when the decoder rejects (R57, R82). -/
def State.rejectDecode (s : State) : DecodeError → State
  | .unknownOpcode ir => s.raise (.unknownOpcode s.pc ir)

/-- The address after an instruction at `pc0` whose opcode byte is `ir` (R59). -/
def sequentialPc (ir pc0 : Byte) : Byte := pc0 + ((operandCountField ir).setWidth 8 + 1#8)

/-- Part 5 of a step (R59): advance past the instruction if the step neither raised nor halted and the
instruction does not set the pc itself. `pc0` is the pc at the start of the step. -/
def State.nextPc (s : State) (ir pc0 : Byte) : State :=
  if s.run = .running ∧ setsPcBit ir = false then s.setPc (sequentialPc ir pc0) else s

/-- Put the three bytes of a word where the next step fetches (see `State.withFetchWord`). -/
def State.placeLatches (s : State) (l : Latches) : State :=
  ((s.store s.pc l.ir).store (s.pc + 1#8) l.operandA).store (s.pc + 2#8) l.operandB

end Sys2Proof.Machine
end

