-- ==== Sys2Proof/Machine/Operands.lean ====
section
/-! DEFINITION. Register operands (spec/30_encoding.md R44, R46). A literal needs no resolution (R45). -/

namespace Sys2Proof.Machine

/-- `Reg(b)` (R46): the register an operand byte names, or none where it raises. DESIGN CHOICE of the spec
for bytes above 7 (log 4: D6). -/
def regIndex (policy : RegIndexPolicy) (b : Byte) : Option RegIndex :=
  if h : b.toNat < 8 then some ⟨b.toNat, h⟩
  else
    match policy with
    | .mask3 => some ⟨(b.extractLsb' 0 3).toNat, (b.extractLsb' 0 3).isLt⟩
    | .fault => none

/-- The operand byte that names register `r`. -/
def registerByte (r : RegIndex) : Byte := BitVec.ofNat 8 r.val

/-- Resolve the operand byte `b` of the instruction with opcode byte `ir`, then go on with `body`; or raise
(R46, R84) and do nothing more. Rules resolve all their operands before they change anything (R87). -/
def State.withReg (c : Config) (s : State) (ir b : Byte) (body : RegIndex → State) : State :=
  match regIndex c.regIndexPolicy b with
  | some r => body r
  | none => s.raise (.registerIndexOutOfRange s.pc ir b)

end Sys2Proof.Machine
end

