-- ==== Sys2Proof/Machine/Alu.lean ====
section
/-! DEFINITION. The ALU and MUL, ADD (spec/43_alu.md). -/

namespace Sys2Proof.Machine

/-- The operation selector: exactly two values, so the undefined selector of U1 cannot be written (R70). -/
inductive AluOp where
  | multiply
  | add
deriving DecidableEq, Repr

/-- The result of an operation: the exact value modulo 256 (R67, R70). -/
def AluOp.result : AluOp → Byte → Byte → Byte
  | .multiply, x, y => x * y
  | .add, x, y => x + y

/-- `apply(op, d, s)` (R67). -/
def State.applyAlu (s : State) (op : AluOp) (d src : RegIndex) : State :=
  let valueB := s.reg src
  s.setReg d (op.result (s.reg d) valueB)

/-- The part MUL and ADD share: resolve operandA, then operandB, then the ALU (R67 to R69, R87). -/
def aluIn (c : Config) (op : AluOp) (ir ra rb : Byte) (s : State) : State :=
  (s.withReg c ir ra fun a => s.withReg c ir rb fun b => s.applyAlu op a b).nextPc ir s.pc

/-- MUL (R68). -/
def mulIn (c : Config) (ra rb : Byte) (s : State) : State := aluIn c .multiply c.opc.mul ra rb s

/-- ADD (R69). -/
def addIn (c : Config) (ra rb : Byte) (s : State) : State := aluIn c .add c.opc.add ra rb s

/-- MUL (R68) at the default configuration. -/
def execMul (ra rb : Byte) (s : State) : Host.Outcome State Fault Refusal := .next (mulIn cfg ra rb s)

/-- ADD (R69) at the default configuration. -/
def execAdd (ra rb : Byte) (s : State) : Host.Outcome State Fault Refusal := .next (addIn cfg ra rb s)

end Sys2Proof.Machine
end

