-- ==== Sys2Proof/Machine/Flags.lean ====
section
/-! DEFINITION. The one flag computation of this hardware (spec/10_state.md R13, spec/45_compare_branch.md
R76). No other instruction computes a flag. -/

namespace Sys2Proof.Machine

/-- `1 if x == y else 0`, on all 8 bits (R6, R76). -/
def equalFlag (x y : Byte) : Bool := x == y

end Sys2Proof.Machine
end

