-- ==== Sys2Proof/Machine/CompareBranch.lean ====
section
/-! DEFINITION. CMP, JMP, JEQ and JNE (spec/45_compare_branch.md). -/

namespace Sys2Proof.Machine

/-- CMP (R76). -/
def cmpIn (c : Config) (ra rb : Byte) (s : State) : State :=
  (s.withReg c c.opc.cmp ra fun a => s.withReg c c.opc.cmp rb fun b =>
    s.setFl (equalFlag (s.reg a) (s.reg b))).nextPc c.opc.cmp s.pc

/-- JMP (R77). -/
def jmpIn (c : Config) (rt : Byte) (s : State) : State :=
  (s.withReg c c.opc.jmp rt fun r => s.setPc (s.reg r)).nextPc c.opc.jmp s.pc

/-- The part JEQ and JNE share: the index is resolved first, then the rule assigns the pc on both paths
(R78, R79). -/
def branchIn (c : Config) (ir rt : Byte) (taken : Bool) (s : State) : State :=
  (s.withReg c ir rt fun r => s.setPc (if taken then s.reg r else s.pc + 2#8)).nextPc ir s.pc

/-- JEQ (R78). -/
def jeqIn (c : Config) (rt : Byte) (s : State) : State := branchIn c c.opc.jeq rt s.fl s

/-- JNE (R79). -/
def jneIn (c : Config) (rt : Byte) (s : State) : State := branchIn c c.opc.jne rt (!s.fl) s

/-- CMP (R76) at the default configuration. -/
def execCmp (ra rb : Byte) (s : State) : Host.Outcome State Fault Refusal := .next (cmpIn cfg ra rb s)

/-- JMP (R77) at the default configuration. -/
def execJmp (rt : Byte) (s : State) : Host.Outcome State Fault Refusal := .next (jmpIn cfg rt s)

/-- JEQ (R78) at the default configuration. -/
def execJeq (rt : Byte) (s : State) : Host.Outcome State Fault Refusal := .next (jeqIn cfg rt s)

/-- JNE (R79) at the default configuration. -/
def execJne (rt : Byte) (s : State) : Host.Outcome State Fault Refusal := .next (jneIn cfg rt s)

end Sys2Proof.Machine
end

