-- ==== Sys2Proof/Machine/Halt.lean ====
section
/-! DEFINITION. HLT (spec/46_halt.md). -/

namespace Sys2Proof.Machine

/-- HLT (R81). The sets-PC bit is 0, yet part 5 leaves the pc: the machine no longer runs (C2). -/
def hltIn (c : Config) (s : State) : State := s.halt.nextPc c.opc.hlt s.pc

/-- HLT (R81) at the default configuration. -/
def execHlt (s : State) : Host.Outcome State Fault Refusal := .next (hltIn cfg s)

end Sys2Proof.Machine
end

