-- ==== Sys2Proof/Machine/LoadImmediate.lean ====
section
/-! DEFINITION. LDI (spec/41_load_immediate.md). In this and the other instruction files `<name>In` is the
rule under any configuration (part 4 and part 5 of a step, R58) and `exec<Name>` its instance at the default
configuration, which `exec` calls. -/

namespace Sys2Proof.Machine

/-- LDI (R63). -/
def ldiIn (c : Config) (rd imm : Byte) (s : State) : State :=
  (s.withReg c c.opc.ldi rd fun r => s.setReg r imm).nextPc c.opc.ldi s.pc

/-- LDI (R63) at the default configuration. -/
def execLdi (rd imm : Byte) (s : State) : Host.Outcome State Fault Refusal := .next (ldiIn cfg rd imm s)

end Sys2Proof.Machine
end

