-- ==== Sys2Proof/Machine/Output.lean ====
section
/-! DEFINITION. PRN, PRA and the rendering of the output stream (spec/42_output.md). -/

namespace Sys2Proof.Machine

/-- PRN (R64). -/
def prnIn (c : Config) (rs : Byte) (s : State) : State :=
  (s.withReg c c.opc.prn rs fun r => s.emit .prn (s.reg r)).nextPc c.opc.prn s.pc

/-- PRA (R65). -/
def praIn (c : Config) (rs : Byte) (s : State) : State :=
  (s.withReg c c.opc.pra rs fun r => s.emit .pra (s.reg r)).nextPc c.opc.pra s.pc

/-- PRN (R64) at the default configuration. -/
def execPrn (rs : Byte) (s : State) : Host.Outcome State Fault Refusal := .next (prnIn cfg rs s)

/-- PRA (R65) at the default configuration. -/
def execPra (rs : Byte) (s : State) : Host.Outcome State Fault Refusal := .next (praIn cfg rs s)

/-! ## Rendering (R66), a function of the stream outside the core -/

/-- The ASCII digit of a number below 10. PRESUMED (log 8: GK4). -/
def asciiDigit (d : Nat) : Byte := BitVec.ofNat 8 (0x30 + d)

/-- `Decimal(v)` (R66): most significant digit first, no sign, padding or leading zero; 0 is one digit. -/
def decimal (v : Byte) : List Byte :=
  let n := v.toNat
  if n < 10 then [asciiDigit n]
  else if n < 100 then [asciiDigit (n / 10), asciiDigit (n % 10)]
  else [asciiDigit (n / 100), asciiDigit (n / 10 % 10), asciiDigit (n % 10)]

/-- The newline byte (R66). PRESUMED (log 8: GK4). -/
def newline : Byte := 0x0A#8

/-- The bytes of one event, without the newline (R66). -/
def renderValue : OutEvent → List Byte
  | ⟨.prn, v⟩ => decimal v
  | ⟨.pra, v⟩ => [v]

/-- `Render` (R66). -/
def render : List OutEvent → List Byte
  | [] => []
  | e :: rest => renderValue e ++ newline :: render rest

end Sys2Proof.Machine
end

