-- ==== Sys2Proof/Machine/Stack.lean ====
section
/-! DEFINITION. PUSH and POP (spec/44_stack.md). -/

namespace Sys2Proof.Machine

/-- PUSH (R73). The value is read before the pointer moves: DESIGN CHOICE of the spec for a push of the
stack pointer itself (log 7: D17). -/
def pushIn (c : Config) (rs : Byte) (s : State) : State :=
  (s.withReg c c.opc.push rs fun r => s.push c (s.reg r)).nextPc c.opc.push s.pc

/-- POP (R74). The register is written after the pointer moves: DESIGN CHOICE of the spec for a pop into
the stack pointer (log 7: D17). -/
def popIn (c : Config) (rd : Byte) (s : State) : State :=
  (s.withReg c c.opc.pop rd fun r => (s.pop c).2.setReg r (s.pop c).1).nextPc c.opc.pop s.pc

/-- PUSH (R73) at the default configuration. -/
def execPush (rs : Byte) (s : State) : Host.Outcome State Fault Refusal := .next (pushIn cfg rs s)

/-- POP (R74) at the default configuration. -/
def execPop (rd : Byte) (s : State) : Host.Outcome State Fault Refusal := .next (popIn cfg rd s)

end Sys2Proof.Machine
end

