-- ==== Sys2Proof/Machine/Dispatch.lean ====
section
/-! DEFINITION. Parts 4 and 5 of a step for a decoded instruction, at the default configuration
(spec/40_sequencer.md R57 to R59): one direct call of a meaning per constructor. -/

namespace Sys2Proof.Machine

/-- Execute a decoded instruction (R57, R59). -/
def exec (i : Instr) (s : State) : Host.Outcome State Fault Refusal :=
  match i with
  | .ldi rd imm => Sys2Proof.Machine.execLdi rd imm s
  | .prn rs => Sys2Proof.Machine.execPrn rs s
  | .pra rs => Sys2Proof.Machine.execPra rs s
  | .mul ra rb => Sys2Proof.Machine.execMul ra rb s
  | .add ra rb => Sys2Proof.Machine.execAdd ra rb s
  | .push rs => Sys2Proof.Machine.execPush rs s
  | .pop rd => Sys2Proof.Machine.execPop rd s
  | .cmp ra rb => Sys2Proof.Machine.execCmp ra rb s
  | .jmp rt => Sys2Proof.Machine.execJmp rt s
  | .jeq rt => Sys2Proof.Machine.execJeq rt s
  | .jne rt => Sys2Proof.Machine.execJne rt s
  | .hlt => Sys2Proof.Machine.execHlt s

end Sys2Proof.Machine
end

