-- ==== Sys2Proof/Machine/Step.lean ====
section
/-! DEFINITION. One step of the machine at the default configuration (spec/40_sequencer.md R53, R58), and
the state with a given instruction placed where the step fetches. -/

namespace Sys2Proof.Machine

/-- One request for a step (R58, R62). While RUNNING: fetch, decode, execute, next pc; a rejected opcode
raises (R57). Otherwise no step is taken and the state does not change (R53, R101; DEDUCED, log 6). -/
def step (s : State) : Host.Outcome State Fault Refusal :=
  match s.run with
  | .running =>
    match decode cfg.opc s.fetch with
    | .ok i => exec i s
    | .error e => .next (s.rejectDecode e)
  | .halted => .next s
  | .faulted => .next s

/-- `s` with the instruction of a table word in the three cells the next step fetches, and running, so that
the next step is that instruction's (log 12). -/
def State.withFetchWord (s : State) (nbits w : Nat) : State :=
  { s.placeLatches (tableLatches nbits w) with run := .running }

end Sys2Proof.Machine
end

