-- ==== Sys2Proof/Machine/Sequencer.lean ====
section
/-! DEFINITION. The step as a function of the configuration and the state (spec/40_sequencer.md R53, R58),
over the same rules that `exec` calls at the default configuration, so that a claim may quantify over the
configuration (spec/00_scope.md R5). -/

namespace Sys2Proof.Machine

/-- Parts 4 and 5 of a step for a decoded instruction (R57, R59). -/
def execIn (c : Config) (i : Instr) (s : State) : State :=
  match i with
  | .ldi rd imm => ldiIn c rd imm s
  | .prn rs => prnIn c rs s
  | .pra rs => praIn c rs s
  | .mul ra rb => mulIn c ra rb s
  | .add ra rb => addIn c ra rb s
  | .push rs => pushIn c rs s
  | .pop rd => popIn c rd s
  | .cmp ra rb => cmpIn c ra rb s
  | .jmp rt => jmpIn c rt s
  | .jeq rt => jeqIn c rt s
  | .jne rt => jneIn c rt s
  | .hlt => hltIn c s

/-- `Step(cfg, s)` (R58), and the unchanged state where no step exists (R53). -/
def stepIn (c : Config) (s : State) : State :=
  match s.run with
  | .running =>
    match decode c.opc s.fetch with
    | .ok i => execIn c i s
    | .error e => s.rejectDecode e
  | .halted => s
  | .faulted => s

/-- `n` requests for a step, a free run under fuel (R61, R62). -/
def runIn (c : Config) : Nat → State → State
  | 0, s => s
  | n + 1, s => runIn c n (stepIn c s)

end Sys2Proof.Machine
end

