-- ==== Sys2Proof/Machine/HostPort.lean ====
section
/-! DEFINITION. The host's side of the block (spec/70_reset_and_hazards.md R96 to R101, spec/20_memory.md
R38): load, launch, the requests a host may make and when, and what it may read. -/

namespace Sys2Proof.Machine

/-- The stores of `Load` (R98): byte k goes to `base +8 k`. -/
def State.storeImage (s : State) (base : Byte) : List Byte → State
  | [] => s
  | b :: rest => (s.store base b).storeImage (base + 1#8) rest

/-- `Load(bytes, base)` (R98). DESIGN CHOICE of the spec (log 10: D11): longer images are refused. -/
def load (bytes : List Byte) (base : Byte) (s : State) : Host.Outcome State Fault Refusal :=
  if bytes.length ≤ 256 then .next (s.storeImage base bytes) else .refused (.imageTooLong bytes.length)

/-- `Launch(cfg, bytes)` (R99): Reset, then Load at `PROGRAM_BASE`. -/
def launch (c : Config) (bytes : List Byte) : Host.Outcome State Fault Refusal :=
  load bytes c.programBase (State.resetIn c)

/-- Where the host stands in the protocol of R101: a load is allowed after a reset and before the first
step. This is the host's, no state of the machine; the model has none before the first reset (D18). -/
inductive HostPhase where
  | beforeFirstStep
  | stepped
deriving DecidableEq, Repr

/-- What the host may ask (R100). Observing changes nothing: see the functions below. -/
inductive HostRequest where
  | reset
  | load (bytes : List Byte) (base : Byte)
  | step
deriving DecidableEq, Repr

/-- The machine and the host's place in the protocol. -/
structure Session where
  phase : HostPhase
  machine : State
deriving DecidableEq, Repr

/-- The effect of a request (R96, R98, R101). A reset is served in any run state; a load during a run is
refused (U9; DESIGN CHOICE of the spec, log 11: D10). -/
def serve (c : Config) (request : HostRequest) (h : Session) : Host.Outcome Session Fault Refusal :=
  match request with
  | .reset => .next ⟨.beforeFirstStep, State.resetIn c⟩
  | .step => .next ⟨.stepped, stepIn c h.machine⟩
  | .load bytes base =>
    match h.phase with
    | .stepped => .refused .loadDuringRun
    | .beforeFirstStep =>
      match load bytes base h.machine with
      | .next s => .next ⟨.beforeFirstStep, s⟩
      | .fault r => .fault r
      | .refused r => .refused r

/-- What the host reads back after a run (R38, R100). -/
structure ReadBack where
  regs : Vector Byte 8
  pc : Byte
  fl : Bool
  mem : Memory
deriving DecidableEq, Repr

/-- State read-back: only when the machine is not RUNNING (R38, R100). `run`, `fault` and `out` are read
at any time (R101): they are the fields of those names. -/
def readBack (s : State) : Option ReadBack :=
  if s.run = .running then none else some ⟨s.regs, s.pc, s.fl, s.mem⟩

end Sys2Proof.Machine
end

