-- ==== Sys2Proof/Safety.lean ====
section
/-! DEFINITION. What claims are stated in: what an instruction keeps, the end of a run, and the invariant of
the machine. -/

namespace Sys2Proof.Machine

/-- Push the values one after the other with the stack primitive (R71, R75). -/
def State.pushAll (c : Config) (s : State) : List Byte → State
  | [] => s
  | v :: rest => (s.push c v).pushAll c rest

/-- Pop `n` values with the stack primitive: the values, first popped first, and the state after (R72, R75). -/
def State.popAll (c : Config) (s : State) : Nat → List Byte × State
  | 0 => ([], s)
  | n + 1 => ((s.pop c).1 :: ((s.pop c).2.popAll c n).1, ((s.pop c).2.popAll c n).2)

/-- Every register outside `written` is unchanged. -/
def KeepsRegsExcept (written : List RegIndex) (s t : State) : Prop :=
  ∀ r : RegIndex, r ∉ written → t.reg r = s.reg r

/-- Every byte of memory reads as before. -/
def KeepsMemory (s t : State) : Prop := ∀ a : Byte, t.mem.read a = s.mem.read a

/-- The run state, the fault latch and the output stream are unchanged. -/
def KeepsRunAndOutput (s t : State) : Prop := t.run = s.run ∧ t.fault = s.fault ∧ t.out = s.out

/-- A transition of the machine: a step taken while RUNNING. There is none from HALTED or FAULTED (D21). -/
def Transition (s t : State) : Prop := s.run = .running ∧ step s = .next t

/-- The run has ended (R102). -/
def Ended (s : State) : Prop := s.run ≠ .running

/-- What a latched cause says of the state it stopped in (R17, R82, R84, R102): the pc still stands at the
faulting instruction, whose bytes are still in memory, and that instruction does raise this cause. -/
def CauseHolds (c : Config) (s : State) : Cause → Prop
  | .unknownOpcode pc ir => pc = s.pc ∧ ir = s.mem.read s.pc ∧ c.opc.lookup ir = none
  | .registerIndexOutOfRange pc ir b =>
    pc = s.pc ∧ ir = s.mem.read s.pc ∧ c.regIndexPolicy = .fault ∧
      ∃ i, decode c.opc s.fetch = .ok i ∧ i.registerOperands.find? (fun x => !namesRegister x) = some b

/-- The invariant of the machine: memory is canonical (R14); the latch is set exactly in FAULTED (R16, R17)
and what it says holds (R17, R102); in HALTED the pc is at a HLT byte (R81, R102). -/
structure Invariant (c : Config) (s : State) : Prop where
  memory : s.mem.wf
  latch : s.fault.isSome = true ↔ s.run = .faulted
  cause : ∀ f, s.fault = some f → CauseHolds c s f
  halted : s.run = .halted → s.mem.read s.pc = c.opc.hlt

end Sys2Proof.Machine
end

