-- ==== Sys2Proof/Certificates/Slice0/Obligations.lean ====
section
/-! DEFINITION. The statements for the provers. Each docstring names the rule of spec/ it formalises, and
the log entry of any choice it rests on. A result statement covers every operand byte that names a register
(`registerByte r` for the eight `r`); `RegisterOperandOutOfRangeTraps` covers every other byte. -/

open Sys2Proof Sys2Proof.Machine

/-! ## Encoding and decoding -/

/-- R24, R39, R42, R55: wherever the bytes of an instruction stand at the pc, modulo 256, the
fetch and the decoder give that instruction back, whatever stands after them, under every valid `OPC`. -/
def Obligations.DecodeFetchedEncoding : Prop :=
  ∀ (m : OpcodeMap), m.Valid → ∀ (i : Instr) (s : State),
    (∀ k (h : k < (encode m i).length), s.mem.read (s.pc + BitVec.ofNat 8 k) = (encode m i)[k]) →
      decode m s.fetch = .ok i

/-- R43: what decodes is as long as its opcode byte's field says: 1 byte for HLT, 2 for PRN, PRA, PUSH, POP,
JMP, JEQ, JNE, 3 for LDI, MUL, ADD, CMP; those bytes are exactly the leading latches, and the same bytes
decode the same way in every state. -/
def Obligations.LengthFromOpcodeByte : Prop :=
  ∀ (m : OpcodeMap), m.Valid → ∀ (s : State) (i : Instr), decode m s.fetch = .ok i →
    lengthFromOpcode s.fetch.ir = (match i with
      | .hlt => 1
      | .prn _ | .pra _ | .push _ | .pop _ | .jmp _ | .jeq _ | .jne _ => 2
      | .ldi _ _ | .mul _ _ | .add _ _ | .cmp _ _ => 3) ∧
    encode m i = [s.fetch.ir, s.fetch.operandA, s.fetch.operandB].take (lengthFromOpcode s.fetch.ir) ∧
    ∀ t : State, (∀ k < lengthFromOpcode s.fetch.ir,
      t.mem.read (t.pc + BitVec.ofNat 8 k) = s.mem.read (s.pc + BitVec.ofNat 8 k)) → decode m t.fetch = .ok i

/-- R42, R47, R50: a byte is rejected, by name, exactly if it is none of the twelve; under every valid map
exactly 244 bytes are, and every byte whose operand-count field is 3 is among them (that field's code is the
spec's choice D2, log 15; the count is the spec's own inference). -/
def Obligations.IllegalBytesAreTheOthers : Prop :=
  ∀ (m : OpcodeMap), m.Valid →
    (∀ l : Latches, (∃ e, decode m l = .error e) ↔ ∀ k, m.byte k ≠ l.ir) ∧
    (∀ ir : Byte, (operandCountField ir).toNat = 3 → m.lookup ir = none) ∧
    ((List.range 256).filter fun n => (m.lookup (BitVec.ofNat 8 n)).isNone).length = 244

/-- R40 of the default `OPC`, whose bytes are PRESUMED (log 1): it meets the spec's constraint. -/
def Obligations.DefaultOpcodesMeetConstraint : Prop := cfg.opc.Valid

/-- R41 (bytes PRESUMED, log 1): words written out from the table decode to their instructions, one of each
family, with all operand bits seen. -/
def Obligations.TableWordsDecode : Prop :=
  decodeTableWord 24 0b111111110000001110000010 = some (.ldi 3#8 255#8) ∧
  decodeTableWord 16 0b0000001001000111 = some (.prn 2#8) ∧
  decodeTableWord 16 0b0000000101001000 = some (.pra 1#8) ∧
  decodeTableWord 24 0b000000010000000010100010 = some (.mul 0#8 1#8) ∧
  decodeTableWord 24 0b000000010000011110100000 = some (.add 7#8 1#8) ∧
  decodeTableWord 16 0b0000011101000101 = some (.push 7#8) ∧
  decodeTableWord 16 0b0000000101000110 = some (.pop 1#8) ∧
  decodeTableWord 24 0b000000100000000010100111 = some (.cmp 0#8 2#8) ∧
  decodeTableWord 16 0b0000001101010100 = some (.jmp 3#8) ∧
  decodeTableWord 16 0b0000001001010101 = some (.jeq 2#8) ∧
  decodeTableWord 16 0b0000001101010110 = some (.jne 3#8) ∧
  decodeTableWord 8 0b00000001 = some .hlt ∧
  decodeTableWord 8 0 = none

/-! ## The step -/

/-- R54, R55: the three bytes fetched in every step, with the addresses counted modulo 256. -/
def Obligations.FetchReadsThreeBytes : Prop :=
  ∀ s : State,
    s.fetch.ir = s.mem.read s.pc ∧
    s.fetch.operandA = s.mem.read (BitVec.ofNat 8 ((s.pc.toNat + 1) % 256)) ∧
    s.fetch.operandB = s.mem.read (BitVec.ofNat 8 ((s.pc.toNat + 2) % 256))

/-- R57, R58: while RUNNING, if the fetched bytes decode, the step is that instruction's `exec` and nothing
besides: the next-PC part stands inside each rule. -/
def Obligations.StepRunsDecodedInstruction : Prop :=
  ∀ (s : State) (i : Instr), s.run = .running → decode cfg.opc s.fetch = .ok i → step s = exec i s

/-- R82 and D7 (log 5): while RUNNING, an opcode byte that is none of the twelve latches its address and
itself, sets FAULTED and changes nothing else. -/
def Obligations.UnknownOpcodeLatches : Prop :=
  ∀ s : State, s.run = .running → (∀ k, cfg.opc.byte k ≠ s.mem.read s.pc) →
    step s = .next { s with run := .faulted, fault := some (.unknownOpcode s.pc (s.mem.read s.pc)) }

/-- R16, R53, D12, D21 (log 6): HALTED and FAULTED are absorbing: any number of requests leaves the state as
it is, and none of them is a transition. -/
def Obligations.HaltedAndFaultedAbsorb : Prop :=
  ∀ (s : State), s.run ≠ .running → (∀ n, Host.Core.run core n s = .next s) ∧ ∀ t, ¬ Transition s t

/-- R62: running `m + n` steps is running `m` and then `n`, whoever asks for them. The rest is the model's own
reading, DEDUCED: every request answers, also one after the end of a run, which leaves the state as it is
(log 6), and no step stops with a fault (log 18). R61 itself ends a run at `run != RUNNING`. -/
def Obligations.RunsComposeAndNeverStop : Prop :=
  ∀ (s : State) (m n : Nat), ∃ t u, Host.Core.run core m s = .next t ∧ Host.Core.run core n t = .next u ∧
    Host.Core.run core (m + n) s = .next u

/-- R12, R59 under every valid configuration (R5): the pc after a step. It stays on an unknown opcode, on a
raise and on HLT; it advances by the field plus 1 modulo 256 where the sets-PC bit is 0; the jumps assign it
themselves on both paths. -/
def Obligations.PcUpdateTable : Prop :=
  ∀ (c : Config), c.opc.Valid → ∀ s : State, s.run = .running →
    (c.opc.lookup s.fetch.ir = none → (stepIn c s).pc = s.pc) ∧
    ((stepIn c s).run = .faulted → (stepIn c s).pc = s.pc) ∧
    ((stepIn c s).run = .running → setsPcBit s.fetch.ir = false →
      (stepIn c s).pc.toNat = (s.pc.toNat + ((operandCountField s.fetch.ir).toNat + 1)) % 256) ∧
    ∀ i, decode c.opc s.fetch = .ok i → i.wellFormed = true →
      match i with
      | .ldi _ _ | .mul _ _ | .add _ _ | .cmp _ _ => (stepIn c s).pc.toNat = (s.pc.toNat + 3) % 256
      | .prn _ | .pra _ | .push _ | .pop _ => (stepIn c s).pc.toNat = (s.pc.toNat + 2) % 256
      | .jmp rt => ∀ r, rt = registerByte r → (stepIn c s).pc = s.reg r
      | .jeq rt => ∀ r, rt = registerByte r →
          (stepIn c s).pc.toNat = if s.fl = true then (s.reg r).toNat else (s.pc.toNat + 2) % 256
      | .jne rt => ∀ r, rt = registerByte r →
          (stepIn c s).pc.toNat = if s.fl = false then (s.reg r).toNat else (s.pc.toNat + 2) % 256
      | .hlt => (stepIn c s).pc = s.pc

/-- R60: a step that raises changes only the run state and the latch. -/
def Obligations.FaultsArePrecise : Prop :=
  ∀ s t : State, s.run = .running → step s = .next t → t.run = .faulted →
    t = { s with run := .faulted, fault := t.fault } ∧ t.fault.isSome = true

/-! ## Each instruction's result and frame -/

/-- R63: LDI completes: the literal is in the register; everything else but the pc is as before. -/
def Obligations.LdiResult : Prop :=
  ∀ (s : State) (r : RegIndex) (imm : Byte), s.run = .running →
    ∃ t, exec (.ldi (registerByte r) imm) s = .next t ∧ t.reg r = imm ∧ KeepsRegsExcept [r] s t ∧
      t.pc.toNat = (s.pc.toNat + 3) % 256 ∧ t.fl = s.fl ∧ KeepsMemory s t ∧ KeepsRunAndOutput s t

/-- R64, R65 and D8 (log 8): PRN and PRA complete: one event with the register's value at the end of the
stream; everything else but the pc is as before. -/
def Obligations.PrnPraResult : Prop :=
  ∀ (s : State) (r : RegIndex), s.run = .running →
    ∀ i kind, (i = Instr.prn (registerByte r) ∧ kind = OutKind.prn) ∨
        (i = Instr.pra (registerByte r) ∧ kind = OutKind.pra) →
      ∃ t, exec i s = .next t ∧ t.out = s.out ++ [⟨kind, s.reg r⟩] ∧ KeepsRegsExcept [] s t ∧
        t.pc.toNat = (s.pc.toNat + 2) % 256 ∧ t.fl = s.fl ∧ KeepsMemory s t ∧ t.run = s.run ∧ t.fault = s.fault

/-- R68: MUL completes: the low byte of the product of the old values, `a = b` included; everything else but
the pc is as before. -/
def Obligations.MulResult : Prop :=
  ∀ (s : State) (a b : RegIndex), s.run = .running →
    ∃ t, exec (.mul (registerByte a) (registerByte b)) s = .next t ∧
      (t.reg a).toNat = ((s.reg a).toNat * (s.reg b).toNat) % 256 ∧ KeepsRegsExcept [a] s t ∧
      t.pc.toNat = (s.pc.toNat + 3) % 256 ∧ t.fl = s.fl ∧ KeepsMemory s t ∧ KeepsRunAndOutput s t

/-- R69: ADD completes: the sum of the old values modulo 256, `a = b` included; everything else but the pc is
as before. -/
def Obligations.AddResult : Prop :=
  ∀ (s : State) (a b : RegIndex), s.run = .running →
    ∃ t, exec (.add (registerByte a) (registerByte b)) s = .next t ∧
      (t.reg a).toNat = ((s.reg a).toNat + (s.reg b).toNat) % 256 ∧ KeepsRegsExcept [a] s t ∧
      t.pc.toNat = (s.pc.toNat + 3) % 256 ∧ t.fl = s.fl ∧ KeepsMemory s t ∧ KeepsRunAndOutput s t

/-- R73 and D17 (log 7): PUSH completes: the stack pointer moves down by 1 modulo 256 and the register's value
before that move is at the moved pointer; every other register, every other byte and everything else but the
pc is as before. -/
def Obligations.PushResult : Prop :=
  ∀ (s : State) (r : RegIndex), s.run = .running →
    ∃ t, exec (.push (registerByte r)) s = .next t ∧
      (t.reg cfg.spIndex).toNat = ((s.reg cfg.spIndex).toNat + 255) % 256 ∧
      KeepsRegsExcept [cfg.spIndex] s t ∧
      t.mem.read (s.sp cfg - 1#8) = s.reg r ∧
      (∀ a, a ≠ s.sp cfg - 1#8 → t.mem.read a = s.mem.read a) ∧
      t.pc.toNat = (s.pc.toNat + 2) % 256 ∧ t.fl = s.fl ∧ KeepsRunAndOutput s t

/-- R74 and D17 (log 7): POP completes: the register has the byte at the old pointer, also where it is the
stack pointer itself; otherwise the pointer moves up by 1 modulo 256; memory and everything else but the pc is
as before. -/
def Obligations.PopResult : Prop :=
  ∀ (s : State) (r : RegIndex), s.run = .running →
    ∃ t, exec (.pop (registerByte r)) s = .next t ∧ t.reg r = s.mem.read (s.sp cfg) ∧
      (r ≠ cfg.spIndex → (t.reg cfg.spIndex).toNat = ((s.reg cfg.spIndex).toNat + 1) % 256) ∧
      KeepsRegsExcept [r, cfg.spIndex] s t ∧ KeepsMemory s t ∧
      t.pc.toNat = (s.pc.toNat + 2) % 256 ∧ t.fl = s.fl ∧ KeepsRunAndOutput s t

/-- R76: CMP completes: FL is 1 exactly if all 8 bits agree; everything else but the pc is as before. -/
def Obligations.CmpResult : Prop :=
  ∀ (s : State) (a b : RegIndex), s.run = .running →
    ∃ t, exec (.cmp (registerByte a) (registerByte b)) s = .next t ∧
      (t.fl = true ↔ ∀ k < 8, (s.reg a).getLsbD k = (s.reg b).getLsbD k) ∧ KeepsRegsExcept [] s t ∧
      t.pc.toNat = (s.pc.toNat + 3) % 256 ∧ KeepsMemory s t ∧ KeepsRunAndOutput s t

/-- R77, R78, R79: JMP, JEQ and JNE complete: the pc is the register's value where the jump is taken and the
old pc plus 2 modulo 256 where it is not; everything else is as before. -/
def Obligations.JumpResults : Prop :=
  ∀ (s : State) (r : RegIndex), s.run = .running →
    ∀ i taken, (i = Instr.jmp (registerByte r) ∧ taken = true) ∨
        (i = Instr.jeq (registerByte r) ∧ taken = s.fl) ∨ (i = Instr.jne (registerByte r) ∧ taken = !s.fl) →
      ∃ t, exec i s = .next t ∧
        t.pc.toNat = (if taken then (s.reg r).toNat else (s.pc.toNat + 2) % 256) ∧ KeepsRegsExcept [] s t ∧
        t.fl = s.fl ∧ KeepsMemory s t ∧ KeepsRunAndOutput s t

/-- R81, C2: HLT completes: HALTED, with the pc still at the HLT byte; everything else is as before. -/
def Obligations.HltResult : Prop := ∀ s : State, exec .hlt s = .next { s with run := .halted }

/-- R46, R84, R87 and D6 (log 4), at the default policy `fault`: the first byte in a register position that
names no register, operandA before operandB, is latched with the pc and the opcode byte; FAULTED; nothing else
changes, whatever the flag is. -/
def Obligations.RegisterOperandOutOfRangeTraps : Prop :=
  ∀ (s : State) (i : Instr) (b : Byte), i.registerOperands.find? (fun x => !namesRegister x) = some b →
    exec i s = .next { s with
      run := .faulted, fault := some (.registerIndexOutOfRange s.pc (cfg.opc.byte i.mnemonic) b) }

/-- R85: no well-formed instruction raises, in any state: no overflow, stack wrap, empty pop, push onto code
or jump target is an error; and a jump to an address that holds no opcode succeeds, the step after it
raising. -/
def Obligations.WellFormedNeverRaises : Prop :=
  (∀ (s : State) (i : Instr), i.wellFormed = true →
    ∃ t, exec i s = .next t ∧ t.fault = s.fault ∧ (t.run = .faulted → s.run = .faulted)) ∧
  ∀ (s t : State) (r : RegIndex), s.run = .running → exec (.jmp (registerByte r)) s = .next t →
    cfg.opc.lookup (s.mem.read (s.reg r)) = none →
      t.pc = s.reg r ∧
      step t = .next { t with run := .faulted, fault := some (.unknownOpcode (s.reg r) (s.mem.read (s.reg r))) }

/-! ## What each piece of state answers to -/

/-- R13: FL is written only by CMP, to 1 if the registers are equal and to 0 if not, and read only by JEQ and
JNE: for every other instruction the old flag makes no difference to anything else, and for CMP not even to the
new flag. It is 0 after reset. -/
def Obligations.FlagWrittenByCmpReadByBranches : Prop :=
  State.reset.fl = false ∧ ∀ (s : State) (i : Instr), ∃ t, exec i s = .next t ∧
    (i.mnemonic ≠ .cmp → t.fl = s.fl) ∧
    (∀ a b, i = .cmp (registerByte a) (registerByte b) → (t.fl = true ↔ s.reg a = s.reg b)) ∧
    (i.mnemonic ≠ .jeq → i.mnemonic ≠ .jne → ∀ f : Bool, ∃ u, exec i (s.setFl f) = .next u ∧
      u.setFl false = t.setFl false ∧
      (∀ a b, i = .cmp (registerByte a) (registerByte b) → u.fl = t.fl))

/-- R23, R26: of all steps only a PUSH changes a byte of memory, and only the byte at the decremented stack
pointer. R73: that byte is then the register's value; for a PUSH of the stack pointer itself, the value before
the decrement is the choice D17 (log 7). That the pushing operand names a register is the default policy of D6
(log 4). -/
def Obligations.OnlyPushWritesMemory : Prop :=
  ∀ (s t : State) (a : Byte), step s = .next t → t.mem.read a ≠ s.mem.read a →
    s.run = .running ∧ a = s.sp cfg - 1#8 ∧
      ∃ r, decode cfg.opc s.fetch = .ok (.push (registerByte r)) ∧ t.mem.read a = s.reg r

/-- R23: of all instructions only POP reads data memory: for every other, a different memory changes nothing
of the rest of the next state, and in memory itself each byte is either as it was before, in both runs, or the
same in both, so what is stored does not depend on memory either. -/
def Obligations.OnlyPopReadsMemory : Prop :=
  ∀ (s : State) (i : Instr) (m : Memory), i.mnemonic ≠ .pop →
    ∃ t u, exec i s = .next t ∧ exec i { s with mem := m } = .next u ∧ { u with mem := t.mem } = t ∧
      ∀ a, (t.mem.read a = s.mem.read a ∧ u.mem.read a = m.read a) ∨ t.mem.read a = u.mem.read a

/-- R9, R10: of all steps only LDI, MUL, ADD and POP change the register they name first, and only PUSH and
POP change the stack pointer besides. That the operand names a register is the default policy of D6 (log 4). -/
def Obligations.RegistersWrittenOnlyAsNamed : Prop :=
  ∀ (s t : State) (q : RegIndex), step s = .next t → t.reg q ≠ s.reg q →
    ∃ i, decode cfg.opc s.fetch = .ok i ∧
      ((∃ b, i = .ldi (registerByte q) b ∨ i = .mul (registerByte q) b ∨ i = .add (registerByte q) b) ∨
        i = .pop (registerByte q) ∨ (q = cfg.spIndex ∧ (i.mnemonic = .push ∨ i.mnemonic = .pop)))

/-- R16, R83 and D7 (log 5): a running machine becomes HALTED exactly by HLT, and FAULTED exactly by an
opcode byte that is none of the twelve or a register operand that names no register. -/
def Obligations.RunStateChangesOnlyByHltOrRaise : Prop :=
  ∀ s t : State, s.run = .running → step s = .next t →
    (t.run = .halted ↔ decode cfg.opc s.fetch = .ok .hlt) ∧
    (t.run = .faulted ↔ (cfg.opc.lookup s.fetch.ir = none ∨
      ∃ i, decode cfg.opc s.fetch = .ok i ∧ i.wellFormed = false))

/-- R17 and D7 (log 5): in a state that meets the invariant the latch, once set, keeps its value over any
number of steps, and it is set by the step that makes the machine FAULTED and by no other. -/
def Obligations.FaultLatchWrittenOnce : Prop :=
  ∀ s : State, Invariant cfg s →
    (∀ f n t, s.fault = some f → Host.Core.run core n s = .next t → t.fault = some f) ∧
    (∀ t, s.fault = none → step s = .next t → (t.fault.isSome = true ↔ t.run = .faulted))

/-- R18, R64, R65 and D8 (log 8): a step leaves the stream or appends one event, and it appends only for PRN
or PRA of a register, with that kind and the register's value. That the operand names a register is the default
policy of D6 (log 4). -/
def Obligations.OutputGrowsOnlyByPrnPra : Prop :=
  ∀ s t : State, step s = .next t →
    t.out = s.out ∨
    ∃ r, (decode cfg.opc s.fetch = .ok (.prn (registerByte r)) ∧ t.out = s.out ++ [⟨.prn, s.reg r⟩]) ∨
      (decode cfg.opc s.fetch = .ok (.pra (registerByte r)) ∧ t.out = s.out ++ [⟨.pra, s.reg r⟩])

/-- R18 (D8, log 8) over a whole run: nothing removes or reorders events, and n steps add at most n. -/
def Obligations.OutputHistoryIsKept : Prop :=
  ∀ (n : Nat) (s t : State), Host.Core.run core n s = .next t →
    ∃ events, t.out = s.out ++ events ∧ events.length ≤ n

/-! ## Invariants -/

/-- R16, R17, R81, R82, R84, R102 (D6, D7; log 4, log 5): every step keeps the invariant. Its clause that the
memory list is canonical is about the model's own form of the memory of R14 (log 9, DESIGN CHOICE). -/
def Obligations.StepKeepsInvariant : Prop :=
  ∀ s t : State, Invariant cfg s → step s = .next t → Invariant cfg t

/-- R21: the reset state meets the invariant, under every configuration. That its memory list is canonical is
about the model's own form (log 9, DESIGN CHOICE); that there is a latch, empty after reset, is D7 (log 5). -/
def Obligations.ResetMeetsInvariant : Prop := ∀ c : Config, Invariant c (State.resetIn c)

/-- R98, R99, R102: after any launch and any number of steps, under every configuration, the invariant holds:
in HALTED the pc is at a HLT byte and in FAULTED at the faulting instruction. It is no statement about one
program: it is for every image the host may load. The latch is D7 (log 5), the operand fault D6 (log 4), the
wrapping load D11 (log 10), a further step request after the end log 6, and the canonical memory list the
model's own form (log 9, DESIGN CHOICE). -/
def Obligations.InvariantOfEveryLaunch : Prop :=
  ∀ (c : Config) (bytes : List Byte) (n : Nat) (s : State), launch c bytes = .next s →
    Invariant c (runIn c n s)

/-! ## The ALU, the stack and memory, under every configuration -/

/-- R67: the ALU's two operations on natural numbers modulo 256, from the old values of both registers; no
side effect besides the destination register. -/
def Obligations.AluApplies : Prop :=
  ∀ (s : State) (op : AluOp) (d src : RegIndex),
    ((s.applyAlu op d src).reg d).toNat = (match op with
      | .multiply => ((s.reg d).toNat * (s.reg src).toNat) % 256
      | .add => ((s.reg d).toNat + (s.reg src).toNat) % 256) ∧
    KeepsRegsExcept [d] s (s.applyAlu op d src) ∧
    s.applyAlu op d src = { s with regs := (s.applyAlu op d src).regs }

/-- R71: `Push`. With the pointer at 0 it moves to 255 and the store is to cell 255. -/
def Obligations.PushPrimitive : Prop :=
  ∀ (c : Config) (s : State) (v : Byte),
    ((s.push c v).sp c).toNat = ((s.sp c).toNat + 255) % 256 ∧
    (s.push c v).mem.read ((s.push c v).sp c) = v ∧
    (∀ a, a ≠ (s.push c v).sp c → (s.push c v).mem.read a = s.mem.read a) ∧
    KeepsRegsExcept [c.spIndex] s (s.push c v) ∧
    s.push c v = { s with regs := (s.push c v).regs, mem := (s.push c v).mem } ∧
    (s.sp c = 0#8 → (s.push c v).sp c = 255#8 ∧ (s.push c v).mem.read 255#8 = v)

/-- R72: `Pop`. The cell keeps its content; with the pointer at 255 it moves to 0. -/
def Obligations.PopPrimitive : Prop :=
  ∀ (c : Config) (s : State),
    (s.pop c).1 = s.mem.read (s.sp c) ∧
    ((s.pop c).2.sp c).toNat = ((s.sp c).toNat + 1) % 256 ∧
    KeepsRegsExcept [c.spIndex] s (s.pop c).2 ∧
    (s.pop c).2 = { s with regs := (s.pop c).2.regs } ∧
    (s.sp c = 255#8 → (s.pop c).2.sp c = 0#8)

/-- R75 (its address formulas are the spec's own inference): fewer than 256 values pushed and then popped come
back in reverse order, every register, the stack pointer among them, is as before, and after the pushes the
k-th value is at the starting pointer minus k. -/
def Obligations.PushPopIsLifo : Prop :=
  ∀ (c : Config) (s : State) (vs : List Byte), vs.length < 256 →
    ((s.pushAll c vs).popAll c vs.length).1 = vs.reverse ∧
    (∀ r, ((s.pushAll c vs).popAll c vs.length).2.reg r = s.reg r) ∧
    (s.pushAll c vs).sp c = s.sp c - BitVec.ofNat 8 vs.length ∧
    ∀ k (h : k < vs.length), (s.pushAll c vs).mem.read (s.sp c - BitVec.ofNat 8 (k + 1)) = vs[k]

/-- R73, R74, R33: the instruction PUSH and then the instruction POP: the popped register has the pushed
register's value, the stack pointer is as before unless it is the popped register, and no other register
changes. -/
def Obligations.PushThenPopMoves : Prop :=
  ∀ (s : State) (p q : RegIndex), s.run = .running →
    ∃ t u, exec (.push (registerByte p)) s = .next t ∧ exec (.pop (registerByte q)) t = .next u ∧
      u.reg q = s.reg p ∧ (∀ r, r ≠ q → u.reg r = s.reg r)

/-- R25: whatever has been written since reset, a read of a cell gives the value most recently written to it,
or 0 if nothing has been. -/
def Obligations.ReadGivesLatestWrite : Prop :=
  ∀ (writes : List (Byte × Byte)) (a : Byte),
    (writes.foldl (fun (m : Memory) w => m.write w.1 w.2) State.reset.mem).read a =
      ((writes.reverse.find? fun w => w.1 == a).map Prod.snd).getD 0#8

/-- R26: a store sets that cell, no other, and no other state; every later read sees it, the fetch of an
instruction at that address included. -/
def Obligations.StoreIsSeenByReadAndFetch : Prop :=
  ∀ (s : State) (a v : Byte),
    (∀ b, (s.store a v).mem.read b = if b = a then v else s.mem.read b) ∧
    s.store a v = { s with mem := (s.store a v).mem } ∧
    ((s.store a v).setPc a).fetch.ir = v ∧
    ((s.store a v).setPc (a - 1#8)).fetch.operandA = v ∧
    ((s.store a v).setPc (a - 2#8)).fetch.operandB = v

/-- R34: a PUSH runs with its bytes as they were before its store, wherever the store lands, its own bytes
included. R73: it stores the register's value and the pc moves on by 2; for the stack pointer itself the value
before the decrement is the choice D17 (log 7). R36, which the spec marks as derived: a later fetch at that
address sees the changed byte. -/
def Obligations.PushOverOwnBytes : Prop :=
  ∀ (s : State) (r : RegIndex), s.run = .running → decode cfg.opc s.fetch = .ok (.push (registerByte r)) →
    ∃ t, step s = .next t ∧ t.mem.read (s.sp cfg - 1#8) = s.reg r ∧
      t.pc = s.pc + 2#8 ∧ (t.setPc (s.sp cfg - 1#8)).fetch.ir = s.reg r ∧
      ∀ p, p ≠ s.sp cfg - 1#8 → (t.setPc p).fetch.ir = (s.setPc p).fetch.ir

/-- Of the model's own form of memory (log 9): two canonical memories that read alike are equal data. -/
def Obligations.CanonicalMemoriesAreEqual : Prop :=
  ∀ m n : Memory, m.wf → n.wf → (∀ a, m.read a = n.read a) → m = n

/-! ## The configuration -/

/-- R46 under the policy `mask3` (D6, log 4): every byte is cut to its low three bits and nothing is raised. -/
def Obligations.Mask3UsesLowBits : Prop :=
  ∀ (c : Config), c.regIndexPolicy = .mask3 → ∀ (i : Instr) (s : State),
    execIn c i s = execIn c (i.mapRegisterOperands fun b => b &&& 7#8) s ∧
    (execIn c i s).fault = s.fault

/-- R46: on well-formed instructions the policy makes no difference. -/
def Obligations.PolicyIrrelevantWhenWellFormed : Prop :=
  ∀ (c : Config) (p : RegIndexPolicy) (i : Instr) (s : State), i.wellFormed = true →
    execIn { c with regIndexPolicy := p } i s = execIn c i s

/-- R5, R40, D1: which valid bytes `OPC` assigns makes no difference to what a well-formed instruction does. -/
def Obligations.OpcodeBytesIrrelevantToMeaning : Prop :=
  ∀ (c : Config) (m : OpcodeMap), c.opc.Valid → m.Valid → ∀ (i : Instr) (s : State), i.wellFormed = true →
    execIn { c with opc := m } i s = execIn c i s

/-! ## Reset, load and the host -/

/-- R21, R96 and D4, D7, D8 (log 2, log 5, log 8): the host's reset from any state, in any run state, under
every configuration. -/
def Obligations.ResetFromAnyState : Prop :=
  ∀ (c : Config) (h : Session), ∃ t, serve c .reset h = .next ⟨.beforeFirstStep, t⟩ ∧
    (∀ r, t.reg r = if r = c.spIndex then c.stackEmptyAddr else 0#8) ∧ t.pc = 0#8 ∧ t.fl = false ∧
    (∀ a, t.mem.read a = 0#8) ∧ t.run = .running ∧ t.fault = none ∧ t.out = []

/-- R98 and D11 (log 10): a load of at most 256 bytes puts byte k at the base plus k modulo 256, and changes
no other cell and nothing else. -/
def Obligations.LoadWritesImage : Prop :=
  ∀ (bytes : List Byte) (base : Byte) (s : State), bytes.length ≤ 256 →
    ∃ t, load bytes base s = .next t ∧
      (∀ k (h : k < bytes.length), t.mem.read (base + BitVec.ofNat 8 k) = bytes[k]) ∧
      (∀ a, (∀ k < bytes.length, a ≠ base + BitVec.ofNat 8 k) → t.mem.read a = s.mem.read a) ∧
      t = { s with mem := t.mem }

/-- R98, R101, U9 and D10, D11 (log 10, log 11): the loads that are refused, by name: more than 256 bytes, and
any load after a step with no reset between. -/
def Obligations.RefusedLoads : Prop :=
  (∀ (bytes : List Byte) (base : Byte) (s : State), 256 < bytes.length →
    load bytes base s = .refused (.imageTooLong bytes.length)) ∧
  ∀ (c : Config) (bytes : List Byte) (base : Byte) (h : Session), ∃ h',
    serve c .step h = .next h' ∧ serve c (.load bytes base) h' = .refused .loadDuringRun

/-- R99 (D4, D7, D8, D11): the launch state of an image of at most 256 bytes loaded at base 0. -/
def Obligations.LaunchState : Prop :=
  ∀ (c : Config) (bytes : List Byte), c.programBase = 0#8 → bytes.length ≤ 256 →
    ∃ s, launch c bytes = .next s ∧
      (∀ a : Byte, s.mem.read a = bytes.getD a.toNat 0#8) ∧
      s = { State.resetIn c with mem := s.mem }

/-- R38, R100 and D10 (log 11): state is read back exactly when the run has ended, and then it is the
registers, the pc, the flag and the memory of the final state. -/
def Obligations.ReadBackAfterRun : Prop :=
  ∀ s : State, (readBack s = none ↔ s.run = .running) ∧
    (Ended s → readBack s = some ⟨s.regs, s.pc, s.fl, s.mem⟩)

/-! ## Rendering -/

/-- R66 (D8, GK4; log 8): the decimal digits are ASCII, stand for the value, and have no leading zero; 0 is the
one digit 0x30. -/
def Obligations.DecimalIsFaithful : Prop :=
  decimal 0#8 = [0x30#8] ∧ ∀ v : Byte,
    (∀ d ∈ decimal v, 0x30 ≤ d.toNat ∧ d.toNat ≤ 0x39) ∧
    (decimal v).foldl (fun n d => 10 * n + (d.toNat - 0x30)) 0 = v.toNat ∧
    ((decimal v).head? = some 0x30#8 → v = 0#8)

/-- R66 (D8; log 8): rendering a stream and then more of it is rendering the parts, so what a run has printed
is never changed by later steps. -/
def Obligations.RenderIsIncremental : Prop :=
  ∀ (n : Nat) (s t : State), Host.Core.run core n s = .next t →
    ∃ events, t.out = s.out ++ events ∧ render t.out = render s.out ++ render events
end

