-- ==== Sys2Proof/Laws/Decode.lean ====
section
/-! SUPPORT. The laws of the opcode map and the decoder. -/

namespace Sys2Proof

theorem Mnemonic.mem_all (k : Mnemonic) : k ∈ Mnemonic.all := by cases k <;> decide

namespace OpcodeMap

variable {m : OpcodeMap}

theorem Valid.operandCount (h : m.Valid) (k : Mnemonic) :
    (operandCountField (m.byte k)).toNat = k.operandCount := (h.2 k k.mem_all).1

theorem Valid.setsPc (h : m.Valid) (k : Mnemonic) : setsPcBit (m.byte k) = k.setsPc :=
  (h.2 k k.mem_all).2

/-- The twelve bytes of a valid map are distinct. -/
theorem Valid.byte_inj (h : m.Valid) {j k : Mnemonic} (e : m.byte j = m.byte k) : j = k :=
  List.inj_on_of_nodup_map h.1 j.mem_all k.mem_all e

/-- What `lookup` finds has that opcode byte. -/
theorem byte_of_lookup {ir : Byte} {k : Mnemonic} (h : m.lookup ir = some k) : m.byte k = ir := by
  simpa using List.find?_some h

theorem lookup_byte (h : m.Valid) (k : Mnemonic) : m.lookup (m.byte k) = some k := by
  cases hl : m.lookup (m.byte k) with
  | none => simpa using List.find?_eq_none.mp hl k k.mem_all
  | some j => exact congrArg some (h.byte_inj (byte_of_lookup hl))

/-- `lookup` fails exactly on a byte that is no opcode. -/
theorem lookup_eq_none {ir : Byte} : m.lookup ir = none ↔ ∀ k, m.byte k ≠ ir := by
  simp [lookup, Mnemonic.mem_all]

end OpcodeMap

@[simp] theorem instrOf_mnemonic (k : Mnemonic) (a b : Byte) : (instrOf k a b).mnemonic = k := by
  cases k <;> rfl

/-- Everything the decoder can answer: the instruction of the opcode's mnemonic, or a rejection. -/
theorem decode_cases (m : OpcodeMap) (l : Latches) :
    (∃ k, m.byte k = l.ir ∧ m.lookup l.ir = some k ∧ decode m l = .ok (instrOf k l.operandA l.operandB)) ∨
    (m.lookup l.ir = none ∧ decode m l = .error (.unknownOpcode l.ir)) := by
  unfold decode
  cases h : m.lookup l.ir with
  | none => simp
  | some k => exact .inl ⟨k, OpcodeMap.byte_of_lookup h, by simp, rfl⟩

/-- A decoded instruction has the opcode byte that was latched. -/
theorem byte_of_decode {m : OpcodeMap} {l : Latches} {i : Instr} (h : decode m l = .ok i) :
    m.byte i.mnemonic = l.ir ∧ i = instrOf i.mnemonic l.operandA l.operandB := by
  obtain ⟨k, hk, -, hd⟩ | ⟨-, hd⟩ := decode_cases m l
  · obtain rfl : instrOf k l.operandA l.operandB = i := by simpa [hd] using h
    simp [hk]
  · simp [hd] at h

/-- A byte that is no opcode is rejected by name. -/
theorem decode_error_iff {m : OpcodeMap} {l : Latches} {e : DecodeError} :
    decode m l = .error e ↔ m.lookup l.ir = none ∧ e = .unknownOpcode l.ir := by
  unfold decode
  cases m.lookup l.ir <;> simp [eq_comm]

theorem defaultOpcodes_valid : Machine.defaultOpcodes.Valid := by decide

end Sys2Proof
end

