-- ==== Sys2Proof/Laws/State.lean ====
section
/-! SUPPORT. One lemma per field per update of the state, and the laws of the register file. -/

namespace Sys2Proof.Machine

variable (s : State)

/-! ### setReg -/

@[simp] theorem State.setReg_regs (r : RegIndex) (v : Byte) : (s.setReg r v).regs = s.regs.set r.val v r.isLt := rfl
@[simp] theorem State.setReg_pc (r : RegIndex) (v : Byte) : (s.setReg r v).pc = s.pc := rfl
@[simp] theorem State.setReg_fl (r : RegIndex) (v : Byte) : (s.setReg r v).fl = s.fl := rfl
@[simp] theorem State.setReg_mem (r : RegIndex) (v : Byte) : (s.setReg r v).mem = s.mem := rfl
@[simp] theorem State.setReg_run (r : RegIndex) (v : Byte) : (s.setReg r v).run = s.run := rfl
@[simp] theorem State.setReg_fault (r : RegIndex) (v : Byte) : (s.setReg r v).fault = s.fault := rfl
@[simp] theorem State.setReg_out (r : RegIndex) (v : Byte) : (s.setReg r v).out = s.out := rfl

/-! ### setPc -/

@[simp] theorem State.setPc_regs (v : Byte) : (s.setPc v).regs = s.regs := rfl
@[simp] theorem State.setPc_pc (v : Byte) : (s.setPc v).pc = v := rfl
@[simp] theorem State.setPc_fl (v : Byte) : (s.setPc v).fl = s.fl := rfl
@[simp] theorem State.setPc_mem (v : Byte) : (s.setPc v).mem = s.mem := rfl
@[simp] theorem State.setPc_run (v : Byte) : (s.setPc v).run = s.run := rfl
@[simp] theorem State.setPc_fault (v : Byte) : (s.setPc v).fault = s.fault := rfl
@[simp] theorem State.setPc_out (v : Byte) : (s.setPc v).out = s.out := rfl

/-! ### setFl -/

@[simp] theorem State.setFl_regs (b : Bool) : (s.setFl b).regs = s.regs := rfl
@[simp] theorem State.setFl_pc (b : Bool) : (s.setFl b).pc = s.pc := rfl
@[simp] theorem State.setFl_fl (b : Bool) : (s.setFl b).fl = b := rfl
@[simp] theorem State.setFl_mem (b : Bool) : (s.setFl b).mem = s.mem := rfl
@[simp] theorem State.setFl_run (b : Bool) : (s.setFl b).run = s.run := rfl
@[simp] theorem State.setFl_fault (b : Bool) : (s.setFl b).fault = s.fault := rfl
@[simp] theorem State.setFl_out (b : Bool) : (s.setFl b).out = s.out := rfl

/-! ### store -/

@[simp] theorem State.store_regs (addr v : Byte) : (s.store addr v).regs = s.regs := rfl
@[simp] theorem State.store_pc (addr v : Byte) : (s.store addr v).pc = s.pc := rfl
@[simp] theorem State.store_fl (addr v : Byte) : (s.store addr v).fl = s.fl := rfl
@[simp] theorem State.store_mem (addr v : Byte) : (s.store addr v).mem = s.mem.write addr v := rfl
@[simp] theorem State.store_run (addr v : Byte) : (s.store addr v).run = s.run := rfl
@[simp] theorem State.store_fault (addr v : Byte) : (s.store addr v).fault = s.fault := rfl
@[simp] theorem State.store_out (addr v : Byte) : (s.store addr v).out = s.out := rfl

/-! ### emit -/

@[simp] theorem State.emit_regs (k : OutKind) (v : Byte) : (s.emit k v).regs = s.regs := rfl
@[simp] theorem State.emit_pc (k : OutKind) (v : Byte) : (s.emit k v).pc = s.pc := rfl
@[simp] theorem State.emit_fl (k : OutKind) (v : Byte) : (s.emit k v).fl = s.fl := rfl
@[simp] theorem State.emit_mem (k : OutKind) (v : Byte) : (s.emit k v).mem = s.mem := rfl
@[simp] theorem State.emit_run (k : OutKind) (v : Byte) : (s.emit k v).run = s.run := rfl
@[simp] theorem State.emit_fault (k : OutKind) (v : Byte) : (s.emit k v).fault = s.fault := rfl
@[simp] theorem State.emit_out (k : OutKind) (v : Byte) : (s.emit k v).out = s.out ++ [⟨k, v⟩] := rfl

/-! ### halt -/

@[simp] theorem State.halt_regs : (s.halt).regs = s.regs := rfl
@[simp] theorem State.halt_pc : (s.halt).pc = s.pc := rfl
@[simp] theorem State.halt_fl : (s.halt).fl = s.fl := rfl
@[simp] theorem State.halt_mem : (s.halt).mem = s.mem := rfl
@[simp] theorem State.halt_run : (s.halt).run = .halted := rfl
@[simp] theorem State.halt_fault : (s.halt).fault = s.fault := rfl
@[simp] theorem State.halt_out : (s.halt).out = s.out := rfl

/-! ### raise -/

@[simp] theorem State.raise_regs (c : Cause) : (s.raise c).regs = s.regs := rfl
@[simp] theorem State.raise_pc (c : Cause) : (s.raise c).pc = s.pc := rfl
@[simp] theorem State.raise_fl (c : Cause) : (s.raise c).fl = s.fl := rfl
@[simp] theorem State.raise_mem (c : Cause) : (s.raise c).mem = s.mem := rfl
@[simp] theorem State.raise_run (c : Cause) : (s.raise c).run = .faulted := rfl
@[simp] theorem State.raise_fault (c : Cause) : (s.raise c).fault = some c := rfl
@[simp] theorem State.raise_out (c : Cause) : (s.raise c).out = s.out := rfl

/-! ### Registers through the updates -/

@[simp] theorem State.setPc_reg (v : Byte) (q : RegIndex) : (s.setPc v).reg q = s.reg q := rfl
@[simp] theorem State.setFl_reg (b : Bool) (q : RegIndex) : (s.setFl b).reg q = s.reg q := rfl
@[simp] theorem State.store_reg (addr v : Byte) (q : RegIndex) : (s.store addr v).reg q = s.reg q := rfl
@[simp] theorem State.emit_reg (k : OutKind) (v : Byte) (q : RegIndex) : (s.emit k v).reg q = s.reg q := rfl
@[simp] theorem State.halt_reg (q : RegIndex) : s.halt.reg q = s.reg q := rfl
@[simp] theorem State.raise_reg (c : Cause) (q : RegIndex) : (s.raise c).reg q = s.reg q := rfl

/-- A write of a register is read back, and leaves every other register (R9). -/
theorem State.setReg_reg (r q : RegIndex) (v : Byte) :
    (s.setReg r v).reg q = if q = r then v else s.reg q := by
  simp only [State.reg, State.setReg, Vector.getElem_set, Fin.val_inj, eq_comm (a := r)]

@[simp] theorem State.setReg_reg_same (r : RegIndex) (v : Byte) : (s.setReg r v).reg r = v := by
  simp [State.setReg_reg]

theorem State.setReg_reg_of_ne {r q : RegIndex} (h : q ≠ r) (v : Byte) :
    (s.setReg r v).reg q = s.reg q := by
  simp [State.setReg_reg, h]

/-- Reset's registers (R21): the stack pointer's is `STACK_EMPTY_ADDR`, the others 0. -/
theorem State.resetIn_reg (c : Config) (q : RegIndex) :
    (State.resetIn c).reg q = if q = c.spIndex then c.stackEmptyAddr else 0#8 := by
  simp only [State.reg, State.resetIn, Vector.getElem_set, Vector.getElem_replicate, Fin.val_inj,
    eq_comm (a := c.spIndex)]

end Sys2Proof.Machine
end

