-- ==== Sys2Proof/Laws/Memory.lean ====
section
/-! SUPPORT. The laws of memory: read after write, and the canonical form. -/

namespace Sys2Proof.Machine

theorem Memory.readAt_erase (m : Memory) (n k : Nat) :
    (m.erase n).readAt k = if k = n then Memory.unlisted else m.readAt k := by
  induction m with
  | nil => simp [Memory.erase, Memory.readAt]
  | cons e rest ih =>
    simp only [Memory.erase] at ih
    by_cases h : e.1 = n
    · subst h
      by_cases hk : k = e.1
      · subst hk
        simpa [Memory.erase] using ih
      · simp [Memory.erase, Memory.readAt, ih, hk, Ne.symm hk]
    · by_cases hk : e.1 = k
      · subst hk; simp [Memory.erase, Memory.readAt, h]
      · simp [Memory.erase, Memory.readAt, ih, h, hk]

theorem Memory.readAt_insertAt (m : Memory) (n k : Nat) (v : Byte) (h : ∀ e ∈ m, e.1 ≠ n) :
    (m.insertAt n v).readAt k = if k = n then v else m.readAt k := by
  induction m with
  | nil => simp [Memory.insertAt, Memory.readAt, eq_comm]
  | cons e rest ih =>
    have he : e.1 ≠ n := h e (by simp)
    have ih' := ih fun f hf => h f (by simp [hf])
    unfold Memory.insertAt
    split
    · by_cases hk : k = n
      · simp [Memory.readAt, hk]
      · simp [Memory.readAt, hk, Ne.symm hk]
    · by_cases hk : e.1 = k
      · subst hk; simp [Memory.readAt, he]
      · simp [Memory.readAt, hk, ih']

/-- A read after a write: the value written in that cell, the old content in every other. -/
theorem Memory.readAt_writeAt (m : Memory) (n k : Nat) (v : Byte) :
    (m.writeAt n v).readAt k = if k = n then v else m.readAt k := by
  unfold Memory.writeAt
  split
  · simp_all [Memory.readAt_erase]
  · rw [Memory.readAt_insertAt _ _ _ _ (by simp [Memory.erase]), Memory.readAt_erase]
    split <;> simp_all

theorem Memory.read_write (m : Memory) (a b v : Byte) :
    (m.write a v).read b = if b = a then v else m.read b := by
  simp [Memory.read, Memory.write, Memory.readAt_writeAt, BitVec.toNat_inj]

theorem Memory.mem_insertAt (m : Memory) (n : Nat) (v : Byte) (e : Host.Cell) :
    e ∈ m.insertAt n v ↔ e = (n, v) ∨ e ∈ m := by
  induction m with
  | nil => simp [Memory.insertAt]
  | cons f rest ih =>
    unfold Memory.insertAt
    split <;> simp_all [or_left_comm]

theorem Memory.erase_wf {m : Memory} (h : m.wf) (n : Nat) : (m.erase n).wf :=
  ⟨h.1.filter _, fun e he => h.2 e (List.mem_of_mem_filter he)⟩

theorem Memory.insertAt_sorted {m : Memory} (n : Nat) (v : Byte)
    (h : m.Pairwise (fun e f => e.1 < f.1)) (hn : ∀ e ∈ m, e.1 ≠ n) :
    (m.insertAt n v).Pairwise (fun e f => e.1 < f.1) := by
  induction m with
  | nil => simp [Memory.insertAt]
  | cons e rest ih =>
    have he : e.1 ≠ n := hn e (by simp)
    obtain ⟨hhead, htail⟩ := List.pairwise_cons.mp h
    unfold Memory.insertAt
    split
    · rename_i hlt
      refine List.pairwise_cons.mpr ⟨fun f hf => ?_, h⟩
      rcases List.mem_cons.mp hf with rfl | hf
      · exact hlt
      · exact hlt.trans (hhead f hf)
    · refine List.pairwise_cons.mpr ⟨fun f hf => ?_, ih htail fun g hg => hn g (by simp [hg])⟩
      rcases (Memory.mem_insertAt rest n v f).mp hf with rfl | hf
      · simp; omega
      · exact hhead f hf

/-- A write keeps the canonical form. -/
theorem Memory.writeAt_wf {m : Memory} (h : m.wf) {n : Nat} (hn : n < 256) (v : Byte) :
    (m.writeAt n v).wf := by
  unfold Memory.writeAt
  split
  · exact Memory.erase_wf h n
  · rename_i hv
    refine ⟨Memory.insertAt_sorted n v (Memory.erase_wf h n).1 (by simp [Memory.erase]), fun e he => ?_⟩
    rcases (Memory.mem_insertAt _ n v e).mp he with rfl | he
    · exact ⟨hn, hv⟩
    · exact (Memory.erase_wf h n).2 e he

/-- `MemWrite` keeps the canonical form. -/
theorem Memory.write_wf {m : Memory} (h : m.wf) (a v : Byte) : (m.write a v).wf :=
  Memory.writeAt_wf h a.isLt v

theorem State.resetIn_wf (c : Config) : (State.resetIn c).mem.wf := by
  simp [Memory.wf, State.resetIn]

end Sys2Proof.Machine
end

