-- ==== Sys2Proof/Laws/Ops.lean ====
section
/-! SUPPORT. One lemma per shared operation that says everything the operation can do. -/

namespace Sys2Proof.Machine

/-! ## Reg(b) and the operands -/

theorem regIndex_of_lt (p : RegIndexPolicy) {b : Byte} (h : b.toNat < 8) :
    regIndex p b = some ⟨b.toNat, h⟩ := by simp [regIndex, h]

theorem regIndex_fault_of_ge {b : Byte} (h : 8 ≤ b.toNat) : regIndex .fault b = none := by
  simp [regIndex, Nat.not_lt.mpr h]

/-- Under `mask3` every byte names a register: its low three bits. -/
theorem regIndex_mask3 (b : Byte) :
    regIndex .mask3 b = some ⟨b.toNat % 8, Nat.mod_lt _ (by decide)⟩ := by
  unfold regIndex
  split
  · simp; omega
  · simp

/-- `Reg` raises exactly on a byte above 7 under the policy `fault`. -/
theorem regIndex_eq_none {p : RegIndexPolicy} {b : Byte} :
    regIndex p b = none ↔ p = .fault ∧ namesRegister b = false := by
  cases p with
  | fault => by_cases h : b.toNat < 8 <;> simp [regIndex, namesRegister, h]
  | mask3 => simp [regIndex_mask3]

@[simp] theorem registerByte_toNat (r : RegIndex) : (registerByte r).toNat = r.val := by
  have := r.isLt
  simp [registerByte]; omega

@[simp] theorem regIndex_registerByte (p : RegIndexPolicy) (r : RegIndex) :
    regIndex p (registerByte r) = some r := by simp [regIndex]

@[simp] theorem namesRegister_registerByte (r : RegIndex) : namesRegister (registerByte r) = true := by
  simp [namesRegister]

/-- Every byte that names a register is the byte of that register. -/
theorem registerByte_of_namesRegister {b : Byte} (h : namesRegister b = true) :
    ∃ r, b = registerByte r :=
  ⟨⟨b.toNat, by simpa [namesRegister] using h⟩, by simp [registerByte]⟩

/-- Everything `withReg` can do: go on with the register, or raise. -/
theorem State.withReg_cases (c : Config) (s : State) (ir b : Byte) (body : RegIndex → State) :
    (∃ r, regIndex c.regIndexPolicy b = some r ∧ s.withReg c ir b body = body r) ∨
    (c.regIndexPolicy = .fault ∧ namesRegister b = false ∧
      s.withReg c ir b body = s.raise (.registerIndexOutOfRange s.pc ir b)) := by
  unfold State.withReg
  cases h : regIndex c.regIndexPolicy b with
  | none => exact .inr ⟨(regIndex_eq_none.mp h).1, (regIndex_eq_none.mp h).2, rfl⟩
  | some r => exact .inl ⟨r, rfl, rfl⟩

@[simp] theorem State.withReg_registerByte (c : Config) (s : State) (ir : Byte) (r : RegIndex)
    (body : RegIndex → State) : s.withReg c ir (registerByte r) body = body r := by
  simp [State.withReg]

/-! ## The next pc -/

/-- The sequential advance, counted in natural numbers (R12, R59). -/
theorem sequentialPc_toNat (ir pc0 : Byte) :
    (sequentialPc ir pc0).toNat = (pc0.toNat + ((operandCountField ir).toNat + 1)) % 256 := by
  have h := (operandCountField ir).isLt
  simp [sequentialPc, BitVec.toNat_add]

/-- Everything part 5 of a step can do: the sequential advance, or nothing. -/
theorem State.nextPc_cases (s : State) (ir pc0 : Byte) :
    (s.run = .running ∧ setsPcBit ir = false ∧ s.nextPc ir pc0 = s.setPc (sequentialPc ir pc0)) ∨
    ((s.run ≠ .running ∨ setsPcBit ir = true) ∧ s.nextPc ir pc0 = s) := by
  unfold State.nextPc
  split
  · simp_all
  · rename_i h
    refine .inr ⟨?_, rfl⟩
    by_cases hr : s.run = .running <;> simp_all

/-- Part 5 writes nothing but the pc. -/
theorem State.nextPc_frame (s : State) (ir pc0 : Byte) :
    s.nextPc ir pc0 = { s with pc := (s.nextPc ir pc0).pc } := by
  obtain ⟨-, -, h⟩ | ⟨-, h⟩ := s.nextPc_cases ir pc0
  · rw [h]; rfl
  · rw [h]

section
variable (s : State) (ir pc0 : Byte)

@[simp] theorem State.nextPc_regs : (s.nextPc ir pc0).regs = s.regs := by rw [State.nextPc_frame]
@[simp] theorem State.nextPc_fl : (s.nextPc ir pc0).fl = s.fl := by rw [State.nextPc_frame]
@[simp] theorem State.nextPc_mem : (s.nextPc ir pc0).mem = s.mem := by rw [State.nextPc_frame]
@[simp] theorem State.nextPc_run : (s.nextPc ir pc0).run = s.run := by rw [State.nextPc_frame]
@[simp] theorem State.nextPc_fault : (s.nextPc ir pc0).fault = s.fault := by rw [State.nextPc_frame]
@[simp] theorem State.nextPc_out : (s.nextPc ir pc0).out = s.out := by rw [State.nextPc_frame]
@[simp] theorem State.nextPc_reg (q : RegIndex) : (s.nextPc ir pc0).reg q = s.reg q := by
  rw [State.nextPc_frame]; rfl

/-- A step that raised does not advance (R59, R60). -/
@[simp] theorem State.raise_nextPc (x : Cause) : (s.raise x).nextPc ir pc0 = s.raise x := by
  simp [State.nextPc]

/-- A step that halted does not advance (R59, C2). -/
@[simp] theorem State.halt_nextPc : s.halt.nextPc ir pc0 = s.halt := by simp [State.nextPc]

end

theorem State.nextPc_of_sequential {s : State} {ir : Byte} (pc0 : Byte) (hr : s.run = .running)
    (hc : setsPcBit ir = false) : s.nextPc ir pc0 = s.setPc (sequentialPc ir pc0) := by
  simp [State.nextPc, hr, hc]

theorem State.nextPc_of_setsPc (s : State) {ir : Byte} (pc0 : Byte) (hc : setsPcBit ir = true) :
    s.nextPc ir pc0 = s := by simp [State.nextPc, hc]

/-! ## The stack -/

/-- Everything `Push` does (R71): the pointer moves down, and the value is at the moved pointer. -/
theorem State.push_eq (c : Config) (s : State) (v : Byte) :
    s.push c v = (s.setReg c.spIndex (s.reg c.spIndex - 1#8)).store (s.reg c.spIndex - 1#8) v := by
  simp [State.push, State.sp, State.setSp]

/-- Everything `Pop` does (R72): the byte at the pointer, and the pointer moved up. -/
theorem State.pop_eq (c : Config) (s : State) :
    s.pop c = (s.mem.read (s.reg c.spIndex), s.setReg c.spIndex (s.reg c.spIndex + 1#8)) := rfl

end Sys2Proof.Machine
end

