-- ==== Sys2Proof/Laws/Exec.lean ====
section
/-! SUPPORT. `exec` and `step` are the configured rules at the default configuration, and what the shape
shared by the rules can do. -/

namespace Sys2Proof.Machine

/-- Every instruction answers a next state: the rule's, at the default configuration. -/
theorem exec_eq (i : Instr) (s : State) : exec i s = .next (execIn cfg i s) := by cases i <;> rfl

/-- Every step answers a next state. -/
theorem step_eq (s : State) : step s = .next (stepIn cfg s) := by
  unfold step stepIn
  cases s.run with
  | running => cases decode cfg.opc s.fetch <;> simp [exec_eq]
  | halted => rfl
  | faulted => rfl

theorem step_next_iff {s t : State} : step s = .next t ↔ stepIn cfg s = t := by simp [step_eq]

/-- Everything a step can do. -/
theorem stepIn_cases (c : Config) (s : State) :
    (s.run ≠ .running ∧ stepIn c s = s) ∨
    (s.run = .running ∧ ∃ i, decode c.opc s.fetch = .ok i ∧ stepIn c s = execIn c i s) ∨
    (s.run = .running ∧ c.opc.lookup s.fetch.ir = none ∧
      stepIn c s = s.raise (.unknownOpcode s.pc s.fetch.ir)) := by
  unfold stepIn
  cases hr : s.run with
  | halted => simp
  | faulted => simp
  | running =>
    cases hd : decode c.opc s.fetch with
    | ok i => simp
    | error e =>
      obtain ⟨hl, rfl⟩ := decode_error_iff.mp hd
      simp [hl, State.rejectDecode]

/-- A one-register rule: it raises on the operand, or it is the body with the next pc. -/
theorem one_register_cases (c : Config) (s : State) (ir b : Byte) (body : RegIndex → State) :
    (∃ r, regIndex c.regIndexPolicy b = some r ∧
      (s.withReg c ir b body).nextPc ir s.pc = (body r).nextPc ir s.pc) ∨
    (c.regIndexPolicy = .fault ∧ namesRegister b = false ∧
      (s.withReg c ir b body).nextPc ir s.pc = s.raise (.registerIndexOutOfRange s.pc ir b)) := by
  obtain ⟨r, hr, h⟩ | ⟨hp, hb, h⟩ := s.withReg_cases c ir b body
  · exact .inl ⟨r, hr, by rw [h]⟩
  · exact .inr ⟨hp, hb, by rw [h, State.raise_nextPc]⟩

/-- A two-register rule: it raises on the first operand, or on the second, or it is the body with the next
pc. -/
theorem two_register_cases (c : Config) (s : State) (ir a b : Byte) (body : RegIndex → RegIndex → State) :
    (∃ p q, regIndex c.regIndexPolicy a = some p ∧ regIndex c.regIndexPolicy b = some q ∧
      (s.withReg c ir a fun x => s.withReg c ir b (body x)).nextPc ir s.pc = (body p q).nextPc ir s.pc) ∨
    (c.regIndexPolicy = .fault ∧ ∃ x, [a, b].find? (fun y => !namesRegister y) = some x ∧
      (s.withReg c ir a fun x => s.withReg c ir b (body x)).nextPc ir s.pc =
        s.raise (.registerIndexOutOfRange s.pc ir x)) := by
  obtain ⟨p, hp, h⟩ | ⟨hf, ha, h⟩ := one_register_cases c s ir a fun x => s.withReg c ir b (body x)
  · obtain ⟨q, hq, h'⟩ | ⟨hf, hb, h'⟩ := one_register_cases c s ir b (body p)
    · exact .inl ⟨p, q, hp, hq, by rw [h, h']⟩
    · have ha : namesRegister a = true := by
        by_contra hn
        rw [regIndex_eq_none.mpr ⟨hf, by simpa using hn⟩] at hp
        cases hp
      exact .inr ⟨hf, b, by simp [ha, hb], by rw [h, h']⟩
  · exact .inr ⟨hf, a, by simp [ha], h⟩

/-- What an instruction does when its register operands resolve, before the next-PC part of the step: `t` is
the state after part 4 (R63 to R81). -/
inductive Effect (c : Config) (s : State) : Instr → State → Prop
  | ldi {rd imm r} : regIndex c.regIndexPolicy rd = some r → Effect c s (.ldi rd imm) (s.setReg r imm)
  | prn {rs r} : regIndex c.regIndexPolicy rs = some r → Effect c s (.prn rs) (s.emit .prn (s.reg r))
  | pra {rs r} : regIndex c.regIndexPolicy rs = some r → Effect c s (.pra rs) (s.emit .pra (s.reg r))
  | mul {ra rb a b} : regIndex c.regIndexPolicy ra = some a → regIndex c.regIndexPolicy rb = some b →
      Effect c s (.mul ra rb) (s.setReg a (s.reg a * s.reg b))
  | add {ra rb a b} : regIndex c.regIndexPolicy ra = some a → regIndex c.regIndexPolicy rb = some b →
      Effect c s (.add ra rb) (s.setReg a (s.reg a + s.reg b))
  | push {rs r} : regIndex c.regIndexPolicy rs = some r → Effect c s (.push rs)
      ((s.setReg c.spIndex (s.reg c.spIndex - 1#8)).store (s.reg c.spIndex - 1#8) (s.reg r))
  | pop {rd r} : regIndex c.regIndexPolicy rd = some r → Effect c s (.pop rd)
      ((s.setReg c.spIndex (s.reg c.spIndex + 1#8)).setReg r (s.mem.read (s.reg c.spIndex)))
  | cmp {ra rb a b} : regIndex c.regIndexPolicy ra = some a → regIndex c.regIndexPolicy rb = some b →
      Effect c s (.cmp ra rb) (s.setFl (s.reg a == s.reg b))
  | jmp {rt r} : regIndex c.regIndexPolicy rt = some r → Effect c s (.jmp rt) (s.setPc (s.reg r))
  | jeq {rt r} : regIndex c.regIndexPolicy rt = some r →
      Effect c s (.jeq rt) (s.setPc (if s.fl then s.reg r else s.pc + 2#8))
  | jne {rt r} : regIndex c.regIndexPolicy rt = some r →
      Effect c s (.jne rt) (s.setPc (if !s.fl then s.reg r else s.pc + 2#8))
  | hlt : Effect c s .hlt s.halt

/-- `u` is the instruction's effect and then the next pc, or the raise of its first register operand that
does not resolve. -/
def EffectOrRaise (c : Config) (i : Instr) (s u : State) : Prop :=
  (∃ t, Effect c s i t ∧ u = t.nextPc (c.opc.byte i.mnemonic) s.pc) ∨
  (c.regIndexPolicy = .fault ∧ ∃ b, i.registerOperands.find? (fun x => !namesRegister x) = some b ∧
    u = s.raise (.registerIndexOutOfRange s.pc (c.opc.byte i.mnemonic) b))

theorem effectOrRaise_of_one {c : Config} {i : Instr} {s : State} {b : Byte} {body : RegIndex → State}
    (ho : i.registerOperands = [b])
    (h : ∀ r, regIndex c.regIndexPolicy b = some r → Effect c s i (body r)) :
    EffectOrRaise c i s ((s.withReg c (c.opc.byte i.mnemonic) b body).nextPc (c.opc.byte i.mnemonic) s.pc) := by
  obtain ⟨r, hr, e⟩ | ⟨hf, hb, e⟩ := one_register_cases c s (c.opc.byte i.mnemonic) b body
  · exact .inl ⟨body r, h r hr, e⟩
  · exact .inr ⟨hf, b, by simp [ho, hb], e⟩

theorem effectOrRaise_of_two {c : Config} {i : Instr} {s : State} {a b : Byte}
    {body : RegIndex → RegIndex → State} (ho : i.registerOperands = [a, b])
    (h : ∀ p q, regIndex c.regIndexPolicy a = some p → regIndex c.regIndexPolicy b = some q →
      Effect c s i (body p q)) :
    EffectOrRaise c i s
      ((s.withReg c (c.opc.byte i.mnemonic) a fun x => s.withReg c (c.opc.byte i.mnemonic) b (body x)).nextPc
        (c.opc.byte i.mnemonic) s.pc) := by
  obtain ⟨p, q, hp, hq, e⟩ | ⟨hf, x, hx, e⟩ := two_register_cases c s (c.opc.byte i.mnemonic) a b body
  · exact .inl ⟨body p q, h p q hp hq, e⟩
  · exact .inr ⟨hf, x, by rw [ho, hx], e⟩

/-- Everything an instruction can do. -/
theorem execIn_cases (c : Config) (i : Instr) (s : State) : EffectOrRaise c i s (execIn c i s) := by
  cases i with
  | ldi rd imm => exact effectOrRaise_of_one (i := .ldi rd imm) rfl fun _ h => .ldi h
  | prn rs => exact effectOrRaise_of_one (i := .prn rs) rfl fun _ h => .prn h
  | pra rs => exact effectOrRaise_of_one (i := .pra rs) rfl fun _ h => .pra h
  | mul ra rb => exact effectOrRaise_of_two (i := .mul ra rb) rfl fun _ _ h h' => .mul h h'
  | add ra rb => exact effectOrRaise_of_two (i := .add ra rb) rfl fun _ _ h h' => .add h h'
  | push rs => exact effectOrRaise_of_one (i := .push rs) rfl fun _ h => (State.push_eq c s _).symm ▸ .push h
  | pop rd => exact effectOrRaise_of_one (i := .pop rd) rfl fun _ h => .pop h
  | cmp ra rb => exact effectOrRaise_of_two (i := .cmp ra rb) rfl fun _ _ h h' => .cmp h h'
  | jmp rt => exact effectOrRaise_of_one (i := .jmp rt) rfl fun _ h => .jmp h
  | jeq rt => exact effectOrRaise_of_one (i := .jeq rt) rfl fun _ h => .jeq h
  | jne rt => exact effectOrRaise_of_one (i := .jne rt) rfl fun _ h => .jne h
  | hlt => exact .inl ⟨_, .hlt, rfl⟩

end Sys2Proof.Machine
end

