-- ==== Sys2Proof/Laws/HostPort.lean ====
section
/-! SUPPORT. The host's operations keep the canonical form of memory. -/

namespace Sys2Proof.Machine

theorem State.storeImage_wf {s : State} (h : s.mem.wf) (base : Byte) (bytes : List Byte) :
    (s.storeImage base bytes).mem.wf := by
  induction bytes generalizing s base with
  | nil => exact h
  | cons b rest ih => exact ih (Memory.write_wf h base b) (base + 1#8)

/-- Everything `load` can answer. -/
theorem load_cases (bytes : List Byte) (base : Byte) (s : State) :
    (bytes.length ≤ 256 ∧ load bytes base s = .next (s.storeImage base bytes)) ∨
    (256 < bytes.length ∧ load bytes base s = .refused (.imageTooLong bytes.length)) := by
  unfold load
  split
  · exact .inl ⟨‹_›, rfl⟩
  · exact .inr ⟨by omega, rfl⟩

/-- Every memory a launch starts from is canonical. -/
theorem launch_wf {c : Config} {bytes : List Byte} {t : State} (h : launch c bytes = .next t) : t.mem.wf := by
  obtain ⟨-, hl⟩ | ⟨-, hl⟩ := load_cases bytes c.programBase (State.resetIn c)
  · obtain rfl : (State.resetIn c).storeImage c.programBase bytes = t := by simpa [launch, hl] using h
    exact State.storeImage_wf (State.resetIn_wf c) _ _
  · simp [launch, hl] at h

theorem State.placeLatches_wf {s : State} (h : s.mem.wf) (l : Latches) : (s.placeLatches l).mem.wf :=
  Memory.write_wf (Memory.write_wf (Memory.write_wf h _ _) _ _) _ _

theorem State.withFetchWord_wf {s : State} (h : s.mem.wf) (nbits w : Nat) : (s.withFetchWord nbits w).mem.wf :=
  State.placeLatches_wf h _

/-- The placed bytes are the bytes fetched, for every pc. -/
theorem State.withFetchWord_fetch (s : State) (nbits w : Nat) :
    (s.withFetchWord nbits w).fetch = tableLatches nbits w := by
  simp [State.fetch, State.withFetchWord, State.placeLatches, Memory.read_write]

end Sys2Proof.Machine
end

