-- ==== Sys2Proof/Laws/PerInstr.lean ====
section
/-! SUPPORT. Statements about an instruction as syntax, one lemma per constructor. -/

namespace Sys2Proof.Laws.Encoding

/-- Under every valid opcode map the encoding is as long as its opcode byte says (R43), it is the opcode
byte and then the operands (R39), and the register operands are among the operands (R44). -/
def Statement (i : Instr) : Prop :=
  ∀ m : OpcodeMap, m.Valid →
    (encode m i).length = lengthFromOpcode (m.byte i.mnemonic) ∧
      encode m i = m.byte i.mnemonic :: i.operands ∧ i.registerOperands.Sublist i.operands

/-- The statement from the two facts about the operands alone. -/
theorem of_operands {i : Instr} (hn : i.operands.length = i.mnemonic.operandCount)
    (hr : i.registerOperands.Sublist i.operands) : Statement i := fun m hm =>
  ⟨by simp [encode, lengthFromOpcode, hm.operandCount, hn], rfl, hr⟩

theorem ldi (rd imm : Byte) : Statement (.ldi rd imm) := of_operands rfl (by simp [Instr.registerOperands, Instr.operands])
theorem prn (rs : Byte) : Statement (.prn rs) := of_operands rfl (List.Sublist.refl _)
theorem pra (rs : Byte) : Statement (.pra rs) := of_operands rfl (List.Sublist.refl _)
theorem mul (ra rb : Byte) : Statement (.mul ra rb) := of_operands rfl (List.Sublist.refl _)
theorem add (ra rb : Byte) : Statement (.add ra rb) := of_operands rfl (List.Sublist.refl _)
theorem push (rs : Byte) : Statement (.push rs) := of_operands rfl (List.Sublist.refl _)
theorem pop (rd : Byte) : Statement (.pop rd) := of_operands rfl (List.Sublist.refl _)
theorem cmp (ra rb : Byte) : Statement (.cmp ra rb) := of_operands rfl (List.Sublist.refl _)
theorem jmp (rt : Byte) : Statement (.jmp rt) := of_operands rfl (List.Sublist.refl _)
theorem jeq (rt : Byte) : Statement (.jeq rt) := of_operands rfl (List.Sublist.refl _)
theorem jne (rt : Byte) : Statement (.jne rt) := of_operands rfl (List.Sublist.refl _)
theorem hlt : Statement .hlt := of_operands rfl (List.Sublist.refl _)

end Sys2Proof.Laws.Encoding
end

