-- ==== Sys2Proof/Tests/Slice0.lean ====
section
/-! SUPPORT. Tests against spec/95_test_vectors.md and the encoding tables of spec/30_encoding.md, and a
witness for the hypotheses of each obligation. Expected values are the spec's, not the model's. -/

namespace Sys2Proof.Tests

open Sys2Proof.Machine

/-! ## Helpers -/

/-- The reset state with bytes at `pc`, that pc, and some registers set. -/
def at_ (pc : Byte) (bytes : List Byte) (regs : List (RegIndex × Byte) := []) : State :=
  regs.foldl (fun s r => s.setReg r.1 r.2) ((State.reset.storeImage pc bytes).setPc pc)

/-- The state after one step. -/
def stepped (s : State) : Option State :=
  match step s with
  | .next t => some t
  | .fault _ => none
  | .refused _ => none

/-! ## Well-formedness: a register position above 7 is refused, a literal never is -/

theorem test_wf_ldi_literal : (Instr.ldi 7#8 255#8).wellFormed = true := by decide
theorem test_illformed_ldi : (Instr.ldi 9#8 1#8).wellFormed = false := by decide
theorem test_illformed_prn : (Instr.prn 8#8).wellFormed = false := by decide
theorem test_illformed_pra : (Instr.pra 8#8).wellFormed = false := by decide
theorem test_illformed_mul_a : (Instr.mul 8#8 0#8).wellFormed = false := by decide
theorem test_illformed_mul_b : (Instr.mul 0#8 16#8).wellFormed = false := by decide
theorem test_illformed_add_a : (Instr.add 255#8 0#8).wellFormed = false := by decide
theorem test_illformed_add_b : (Instr.add 0#8 8#8).wellFormed = false := by decide
theorem test_illformed_push : (Instr.push 8#8).wellFormed = false := by decide
theorem test_illformed_pop : (Instr.pop 128#8).wellFormed = false := by decide
theorem test_illformed_cmp_a : (Instr.cmp 8#8 9#8).wellFormed = false := by decide
theorem test_illformed_cmp_b : (Instr.cmp 7#8 8#8).wellFormed = false := by decide
theorem test_illformed_jmp : (Instr.jmp 8#8).wellFormed = false := by decide
theorem test_illformed_jeq : (Instr.jeq 8#8).wellFormed = false := by decide
theorem test_illformed_jne : (Instr.jne 8#8).wellFormed = false := by decide

/-! ## Decoding: words written out from the table of R41, operands from the vectors -/

theorem test_decode_ldi : decode cfg.opc ⟨0b10000010#8, 0x03#8, 0xFF#8⟩ = .ok (.ldi 3#8 255#8) := by decide
theorem test_decode_prn : decode cfg.opc ⟨0b01000111#8, 0x07#8, 0xFF#8⟩ = .ok (.prn 7#8) := by decide
theorem test_decode_pra : decode cfg.opc ⟨0b01001000#8, 0x01#8, 0x00#8⟩ = .ok (.pra 1#8) := by decide
theorem test_decode_mul : decode cfg.opc ⟨0b10100010#8, 0x00#8, 0x01#8⟩ = .ok (.mul 0#8 1#8) := by decide
theorem test_decode_add : decode cfg.opc ⟨0b10100000#8, 0x07#8, 0x01#8⟩ = .ok (.add 7#8 1#8) := by decide
theorem test_decode_push : decode cfg.opc ⟨0b01000101#8, 0x07#8, 0x01#8⟩ = .ok (.push 7#8) := by decide
theorem test_decode_pop : decode cfg.opc ⟨0b01000110#8, 0x02#8, 0x01#8⟩ = .ok (.pop 2#8) := by decide
theorem test_decode_cmp : decode cfg.opc ⟨0b10100111#8, 0x00#8, 0x10#8⟩ = .ok (.cmp 0#8 16#8) := by decide
theorem test_decode_jmp : decode cfg.opc ⟨0b01010100#8, 0x03#8, 0x01#8⟩ = .ok (.jmp 3#8) := by decide
theorem test_decode_jeq : decode cfg.opc ⟨0b01010101#8, 0x02#8, 0x01#8⟩ = .ok (.jeq 2#8) := by decide
theorem test_decode_jne : decode cfg.opc ⟨0b01010110#8, 0x03#8, 0x01#8⟩ = .ok (.jne 3#8) := by decide
theorem test_decode_hlt : decode cfg.opc ⟨0b00000001#8, 0x82#8, 0x09#8⟩ = .ok .hlt := by decide
/-- 0x00 is no no-operation (R47). -/
theorem test_decode_zero : decode cfg.opc ⟨0x00#8, 0#8, 0#8⟩ = .error (.unknownOpcode 0x00#8) := by decide
/-- Operand count 3 (V-SEQ-4). -/
theorem test_decode_c1 : decode cfg.opc ⟨0xC1#8, 0#8, 0#8⟩ = .error (.unknownOpcode 0xC1#8) := by decide
theorem test_encode_ldi : encode cfg.opc (.ldi 0#8 8#8) = [0x82#8, 0x00#8, 0x08#8] := by decide
theorem test_encode_hlt : encode cfg.opc .hlt = [0x01#8] := by decide
theorem test_length_cmp : lengthFromOpcode 0xA7#8 = 3 := by decide
theorem test_setsPc_jne : setsPcBit 0x56#8 = true ∧ setsPcBit 0x47#8 = false := by decide

/-! ## Sequencer (V-SEQ) -/

theorem test_seq_1_illegal_zero : (stepped State.reset).map (fun t => (t.run, t.fault, t.pc)) =
    some (.faulted, some (.unknownOpcode 0#8 0x00#8), 0#8) := by decide
theorem test_seq_2_wrap_at_255 : (stepped (at_ 255#8 [0x82#8, 0x04#8, 0x99#8])).map
    (fun t => (t.reg 4, t.pc)) = some (0x99#8, 2#8) := by decide
theorem test_seq_3_wrap_at_254 : (stepped (at_ 254#8 [0xA0#8, 0x01#8, 0x02#8] [(1, 5#8), (2, 6#8)])).map
    (fun t => (t.reg 1, t.pc)) = some (11#8, 1#8) := by decide
theorem test_seq_5_halted_absorbs : stepped State.reset.halt = some State.reset.halt := by decide
theorem test_seq_8_operandB_ignored : (stepped (at_ 0#8 [0x47#8, 0x00#8, 0xFF#8])).map
    (fun t => (t.out, t.pc)) = some ([⟨.prn, 0#8⟩], 2#8) := by decide

/-! ## Instructions -/

/-- V-LDI-4. -/
theorem test_ldi_sp : (stepped (at_ 0#8 [0x82#8, 0x07#8, 0x09#8])).map (fun t => (t.reg 7, t.pc)) =
    some (9#8, 3#8) := by decide
/-- V-LDI-5. -/
theorem test_ldi_out_of_range : (stepped (at_ 0#8 [0x82#8, 0x09#8, 0x01#8])).map
    (fun t => (t.run, t.fault, t.pc)) =
    some (.faulted, some (.registerIndexOutOfRange 0#8 0x82#8 0x09#8), 0#8) := by decide
/-- V-PRN-4. -/
theorem test_prn_sp : (stepped (at_ 0#8 [0x47#8, 0x07#8])).map (fun t => t.out) =
    some [⟨.prn, 244#8⟩] := by decide
/-- V-PRA-2. -/
theorem test_pra_newline : (stepped (at_ 0#8 [0x48#8, 0x01#8] [(1, 10#8)])).map
    (fun t => render t.out) = some [0x0A#8, 0x0A#8] := by decide
/-- V-PRA-4. -/
theorem test_pra_out_of_range : (stepped (at_ 0#8 [0x48#8, 0x08#8])).map (fun t => (t.fault, t.out)) =
    some (some (.registerIndexOutOfRange 0#8 0x48#8 0x08#8), []) := by decide
/-- V-MUL-7. -/
theorem test_mul_wraps : (stepped (at_ 0#8 [0xA2#8, 0x00#8, 0x01#8] [(0, 200#8), (1, 3#8)])).map
    (fun t => (t.reg 0, t.reg 1, t.pc)) = some (88#8, 3#8, 3#8) := by decide
/-- V-MUL-8. -/
theorem test_mul_squares : (stepped (at_ 0#8 [0xA2#8, 0x00#8, 0x00#8] [(0, 12#8)])).map
    (fun t => t.reg 0) = some 144#8 := by decide
/-- V-ADD-2. -/
theorem test_add_wraps : (stepped (at_ 0#8 [0xA0#8, 0x00#8, 0x01#8] [(0, 200#8), (1, 100#8)])).map
    (fun t => t.reg 0) = some 44#8 := by decide
/-- V-FL-1. -/
theorem test_add_keeps_flag : (stepped ((at_ 0#8 [0xA0#8, 0x00#8, 0x01#8] [(0, 255#8), (1, 1#8)]).setFl true)).map
    (fun t => (t.reg 0, t.fl)) = some (0#8, true) := by decide
/-- V-PUSH-3. -/
theorem test_push_sp : (stepped (at_ 0#8 [0x45#8, 0x07#8])).map
    (fun t => (t.reg 7, t.mem.read 0xF3#8, t.pc)) = some (0xF3#8, 0xF4#8, 2#8) := by decide
/-- V-PUSH-4. -/
theorem test_push_over_own_operand : (stepped (at_ 0#8 [0x45#8, 0x00#8] [(0, 5#8), (7, 2#8)])).map
    (fun t => (t.reg 7, t.mem.read 0#8, t.mem.read 1#8, t.pc)) = some (1#8, 0x45#8, 5#8, 2#8) := by decide
/-- V-POP-4. -/
theorem test_pop_into_sp : (stepped ((at_ 0#8 [0x46#8, 0x07#8]).store 0xF4#8 0x20#8)).map
    (fun t => t.reg 7) = some 0x20#8 := by decide
/-- V-POP-2. -/
theorem test_pop_wraps : (stepped ((at_ 0#8 [0x46#8, 0x00#8] [(7, 0xFF#8)]).store 0xFF#8 0x77#8)).map
    (fun t => (t.reg 0, t.reg 7, t.mem.read 0xFF#8)) = some (0x77#8, 0#8, 0x77#8) := by decide
/-- V-CMP-5. -/
theorem test_cmp_no_order : (stepped ((at_ 0#8 [0xA7#8, 0x00#8, 0x01#8] [(0, 128#8), (1, 127#8)]).setFl true)).map
    (fun t => t.fl) = some false := by decide
/-- V-CMP-8: operandA is reported. -/
theorem test_cmp_reports_operandA : (stepped (at_ 0#8 [0xA7#8, 0x08#8, 0x09#8])).map (fun t => t.fault) =
    some (some (.registerIndexOutOfRange 0#8 0xA7#8 0x08#8)) := by decide
/-- V-JMP-4. -/
theorem test_jmp_ignores_flag : (stepped ((at_ 0#8 [0x54#8, 0x02#8] [(2, 9#8)]).setFl true)).map
    (fun t => (t.pc, t.fl)) = some (9#8, true) := by decide
/-- V-JEQ-1. -/
theorem test_jeq_taken : (stepped ((at_ 10#8 [0x55#8, 0x02#8] [(2, 40#8)]).setFl true)).map (fun t => t.pc) =
    some 40#8 := by decide
/-- V-JEQ-3. -/
theorem test_jeq_not_taken_wraps : (stepped (at_ 254#8 [0x55#8, 0x00#8])).map (fun t => t.pc) =
    some 0#8 := by decide
/-- V-JNE-2. -/
theorem test_jne_not_taken : (stepped ((at_ 18#8 [0x56#8, 0x03#8] [(3, 12#8)]).setFl true)).map (fun t => t.pc) =
    some 20#8 := by decide
/-- V-JNE-3. -/
theorem test_jne_across_wrap : (stepped (at_ 255#8 [0x56#8, 0x03#8] [(3, 0x40#8)])).map (fun t => t.pc) =
    some 0x40#8 := by decide
/-- V-HLT-1. -/
theorem test_hlt_keeps_pc : (stepped (at_ 11#8 [0x01#8])).map (fun t => (t.run, t.pc)) =
    some (.halted, 11#8) := by decide
/-- P9 under `mask3`: operandA 8 resolves to register 0. -/
theorem test_mask3 : (stepIn { cfg with regIndexPolicy := .mask3 }
    (at_ 3#8 [0xA2#8, 0x08#8, 0x00#8] [(0, 3#8)])).reg 0 = 9#8 := by decide

/-! ## Reset, load, host, rendering, text -/

/-- V-RST-1. -/
theorem test_reset_registers : State.reset.regs.toList = [0#8, 0#8, 0#8, 0#8, 0#8, 0#8, 0#8, 0xF4#8] := by decide
/-- V-LD-1. -/
theorem test_load : (State.reset.storeImage 0#8 [0x82#8, 0x00#8, 0x08#8, 0x01#8]).mem =
    [(0, 0x82#8), (2, 0x08#8), (3, 0x01#8)] := by decide
/-- V-LD-2. -/
theorem test_load_257 : load (List.replicate 257 0#8) 0#8 State.reset = .refused (.imageTooLong 257) := by
  unfold load; rw [List.length_replicate]; rfl
theorem test_readback_only_after_run : readBack State.reset = none ∧ (readBack State.reset.halt).isSome := by decide
/-- V-PRN-3. -/
theorem test_render_255 : render [⟨.prn, 255#8⟩] = [0x32#8, 0x35#8, 0x35#8, 0x0A#8] := by decide
/-- V-PRN-2, V-PRA-3. -/
theorem test_render_0_200 : render [⟨.prn, 0#8⟩, ⟨.pra, 200#8⟩] = [0x30#8, 0x0A#8, 0xC8#8, 0x0A#8] := by decide
/-- P1's first line. -/
theorem test_assembly_ldi : (Instr.ldi 0#8 8#8).assembly = "LDI R0, 8" := by decide
/-- P9's second line. -/
theorem test_assembly_no_register : (Instr.mul 8#8 0#8).assembly = "MUL <8>, R0" := by decide

/-! ## The fetch word the host places -/

theorem test_fetch_word : (stepped (State.reset.withFetchWord 24 0x080082)).map (fun t => (t.reg 0, t.pc)) =
    some (8#8, 3#8) := by decide
theorem test_fetch_word_cut : decodeTableWord 8 0xFFFF82 = some (.ldi 0#8 0#8) := by decide

/-! ## Witnesses: for each obligation with hypotheses, states and operands that meet them all. Where an
obligation has several clauses each has its own line. -/

/-- LDI R4, 0x99 across the wrap: opcode at 255, operands at 0 and 1 (V-SEQ-2). -/
def wrapLdi : State := at_ 255#8 [0x82#8, 0x04#8, 0x99#8]

theorem test_witness_DecodeFetchedEncoding : cfg.opc.Valid ∧
    ∀ k (h : k < (encode cfg.opc (.ldi 4#8 0x99#8)).length),
      wrapLdi.mem.read (wrapLdi.pc + BitVec.ofNat 8 k) = (encode cfg.opc (.ldi 4#8 0x99#8))[k] := by decide

theorem test_witness_LengthFromOpcodeByte : cfg.opc.Valid ∧
    decode cfg.opc wrapLdi.fetch = .ok (.ldi 4#8 0x99#8) ∧
    decode cfg.opc (at_ 0#8 [0x47#8]).fetch = .ok (.prn 0#8) ∧
    decode cfg.opc (at_ 11#8 [0x01#8]).fetch = .ok .hlt ∧
    ∀ k < lengthFromOpcode wrapLdi.fetch.ir, (at_ 9#8 [0x82#8, 0x04#8, 0x99#8]).mem.read (9#8 + BitVec.ofNat 8 k) =
      wrapLdi.mem.read (wrapLdi.pc + BitVec.ofNat 8 k) := by decide

theorem test_witness_IllegalBytesAreTheOthers : cfg.opc.Valid ∧ (operandCountField 0xC0#8).toNat = 3 ∧
    (operandCountField 0xFF#8).toNat = 3 ∧ (∀ k, cfg.opc.byte k ≠ 0x00#8) ∧ cfg.opc.byte .ldi = 0x82#8 :=
  ⟨by decide, by decide, by decide, fun k => by cases k <;> decide, by decide⟩

theorem test_witness_StepRunsDecodedInstruction :
    wrapLdi.run = .running ∧ decode cfg.opc wrapLdi.fetch = .ok (.ldi 4#8 0x99#8) := by decide

theorem test_witness_UnknownOpcodeLatches :
    State.reset.run = .running ∧ ∀ k, cfg.opc.byte k ≠ State.reset.mem.read State.reset.pc :=
  ⟨rfl, fun k => by cases k <;> decide⟩

theorem test_witness_HaltedAndFaultedAbsorb :
    State.reset.halt.run ≠ .running ∧ (State.reset.raise (.unknownOpcode 0#8 0#8)).run ≠ .running := by decide

/-- One line per clause: unknown opcode, raise, sequential, HLT, and the jumps at the edge of memory. -/
theorem test_witness_PcUpdateTable : cfg.opc.Valid ∧
    (State.reset.run = .running ∧ cfg.opc.lookup State.reset.fetch.ir = none) ∧
    (stepIn cfg (at_ 0#8 [0x55#8, 0x08#8])).run = .faulted ∧
    ((stepIn cfg wrapLdi).run = .running ∧ setsPcBit wrapLdi.fetch.ir = false ∧ (Instr.ldi 4#8 0x99#8).wellFormed) ∧
    decode cfg.opc (at_ 255#8 [0x01#8]).fetch = .ok .hlt ∧
    decode cfg.opc (at_ 255#8 [0x54#8, 0x07#8]).fetch = .ok (.jmp (registerByte 7)) ∧
    decode cfg.opc (at_ 254#8 [0x55#8]).fetch = .ok (.jeq (registerByte 0)) ∧
    decode cfg.opc (at_ 255#8 [0x56#8, 0x03#8]).fetch = .ok (.jne (registerByte 3)) := by decide

theorem test_witness_FaultsArePrecise : (at_ 0#8 [0xA2#8, 0x00#8, 0x10#8]).run = .running ∧
    (stepped (at_ 0#8 [0xA2#8, 0x00#8, 0x10#8])).map (fun t => t.run) = some .faulted ∧
    (stepped State.reset).map (fun t => t.run) = some .faulted := by decide

/-- The one hypothesis of LdiResult, MulResult, AddResult, PushResult, PopResult, CmpResult, PushThenPopMoves. -/
theorem test_witness_running : State.reset.run = .running ∧ wrapLdi.run = .running := by decide

theorem test_witness_PrnPraResult : State.reset.run = .running ∧
    ((Instr.prn 7#8 = .prn (registerByte 7) ∧ OutKind.prn = .prn) ∧
      (Instr.pra 0#8 = .pra (registerByte 0) ∧ OutKind.pra = .pra)) := by decide

theorem test_witness_JumpResults : State.reset.run = .running ∧
    Instr.jmp 0#8 = .jmp (registerByte 0) ∧
    (Instr.jeq 7#8 = .jeq (registerByte 7) ∧ false = State.reset.fl) ∧
    (Instr.jne 7#8 = .jne (registerByte 7) ∧ true = !State.reset.fl) := by decide

/-- The first bad byte, at both ends of its range and in both positions. -/
theorem test_witness_RegisterOperandOutOfRangeTraps :
    (Instr.ldi 8#8 0#8).registerOperands.find? (fun x => !namesRegister x) = some 8#8 ∧
    (Instr.cmp 8#8 9#8).registerOperands.find? (fun x => !namesRegister x) = some 8#8 ∧
    (Instr.add 7#8 255#8).registerOperands.find? (fun x => !namesRegister x) = some 255#8 := by decide

theorem test_witness_WellFormedNeverRaises : (Instr.push 7#8).wellFormed ∧ Instr.hlt.wellFormed ∧
    ∃ t, (at_ 0#8 [0x54#8, 0x01#8] [(1, 9#8)]).run = .running ∧
      exec (.jmp (registerByte 1)) (at_ 0#8 [0x54#8, 0x01#8] [(1, 9#8)]) = .next t ∧
      cfg.opc.lookup ((at_ 0#8 [0x54#8, 0x01#8] [(1, 9#8)]).mem.read
        ((at_ 0#8 [0x54#8, 0x01#8] [(1, 9#8)]).reg 1)) = none :=
  ⟨by decide, by decide, _, by decide, exec_eq _ _, by decide⟩

theorem test_witness_FlagWrittenByCmpReadByBranches :
    (Instr.add 0#8 1#8).mnemonic ≠ .cmp ∧ (Instr.cmp 0#8 7#8) = .cmp (registerByte 0) (registerByte 7) ∧
    (Instr.cmp 0#8 7#8).mnemonic ≠ .jeq ∧ (Instr.cmp 0#8 7#8).mnemonic ≠ .jne := by decide

/-- A PUSH at the wrap of the stack (V-PUSH-2). -/
def wrapPush : State := at_ 0x10#8 [0x45#8, 0x00#8] [(0, 0xAB#8), (7, 0#8)]

theorem test_witness_OnlyPushWritesMemory :
    ∃ t, step wrapPush = .next t ∧ t.mem.read 0xFF#8 ≠ wrapPush.mem.read 0xFF#8 :=
  ⟨_, step_eq _, by decide⟩

theorem test_witness_OnlyPopReadsMemory : (Instr.push 7#8).mnemonic ≠ .pop ∧ Instr.hlt.mnemonic ≠ .pop := by decide

/-- The named register, and the stack pointer besides it. -/
theorem test_witness_RegistersWrittenOnlyAsNamed :
    (∃ t, step wrapLdi = .next t ∧ t.reg 4 ≠ wrapLdi.reg 4) ∧
    (∃ t, step wrapPush = .next t ∧ t.reg 7 ≠ wrapPush.reg 7) :=
  ⟨⟨_, step_eq _, by decide⟩, ⟨_, step_eq _, by decide⟩⟩

theorem test_witness_RunStateChangesOnlyByHltOrRaise :
    (∃ t, (at_ 255#8 [0x01#8]).run = .running ∧ step (at_ 255#8 [0x01#8]) = .next t ∧ t.run = .halted) ∧
    (∃ t, State.reset.run = .running ∧ step State.reset = .next t ∧ t.run = .faulted) ∧
    (∃ t, (at_ 0#8 [0x45#8, 0x08#8]).run = .running ∧ step (at_ 0#8 [0x45#8, 0x08#8]) = .next t ∧
      t.run = .faulted) :=
  ⟨⟨_, by decide, step_eq _, by decide⟩, ⟨_, by decide, step_eq _, by decide⟩, ⟨_, by decide, step_eq _, by decide⟩⟩

theorem test_reset_invariant : Invariant cfg State.reset :=
  ⟨by decide, by decide, by simp [State.reset, State.resetIn], by decide⟩

/-- The reset state after its first step: a state with the latch set that meets the invariant. -/
def faultedState : State := State.reset.raise (.unknownOpcode 0#8 0x00#8)

theorem test_witness_FaultLatchWrittenOnce :
    (Invariant cfg faultedState ∧ faultedState.fault = some (.unknownOpcode 0#8 0x00#8) ∧
      Host.Core.run core 0 faultedState = .next faultedState) ∧
    (Invariant cfg State.reset ∧ State.reset.fault = none ∧ step State.reset = .next faultedState) := by
  refine ⟨⟨⟨by decide, by decide, fun f hf => ?_, by decide⟩, rfl, rfl⟩, test_reset_invariant, rfl, rfl⟩
  obtain rfl : Cause.unknownOpcode 0#8 0x00#8 = f := by simpa [faultedState] using hf
  exact ⟨rfl, rfl, by decide⟩

/-- The three outcomes: no event, a PRN, a PRA. -/
theorem test_witness_OutputGrowsOnlyByPrnPra :
    (∃ t, step wrapLdi = .next t) ∧ (∃ t, step (at_ 0#8 [0x47#8, 0x07#8]) = .next t) ∧
    (∃ t, step (at_ 0#8 [0x48#8, 0x07#8]) = .next t) := ⟨⟨_, step_eq _⟩, ⟨_, step_eq _⟩, ⟨_, step_eq _⟩⟩

/-- A run that emits, for OutputHistoryIsKept and RenderIsIncremental. -/
theorem test_witness_OutputHistoryIsKept :
    ∃ t, Host.Core.run core 1 (at_ 0#8 [0x47#8, 0x07#8]) = .next t ∧ t.out = [⟨.prn, 244#8⟩] := ⟨_, rfl, by decide⟩

theorem test_witness_StepKeepsInvariant : ∃ t, Invariant cfg State.reset ∧ step State.reset = .next t :=
  ⟨_, test_reset_invariant, step_eq _⟩

theorem test_witness_InvariantOfEveryLaunch : ∃ s, launch cfg [0x01#8] = .next s := ⟨_, rfl⟩

theorem test_witness_PushPrimitive : wrapPush.sp cfg = 0#8 := by decide

theorem test_witness_PopPrimitive : (at_ 0#8 [] [(7, 255#8)]).sp cfg = 255#8 := by decide

theorem test_witness_PushPopIsLifo : (List.replicate 255 1#8).length < 256 ∧ ([] : List Byte).length < 256 := by
  rw [List.length_replicate]; decide

theorem test_witness_PushOverOwnBytes : (at_ 0#8 [0x45#8, 0x00#8] [(0, 5#8), (7, 2#8)]).run = .running ∧
    decode cfg.opc (at_ 0#8 [0x45#8, 0x00#8] [(0, 5#8), (7, 2#8)]).fetch = .ok (.push (registerByte 0)) ∧
    (at_ 0#8 [0x45#8, 0x00#8] [(0, 5#8), (7, 2#8)]).sp cfg - 1#8 = 1#8 := by decide

theorem test_witness_CanonicalMemoriesAreEqual :
    Memory.wf [(0, 1#8), (255, 2#8)] ∧ Memory.wf (Memory.write [(0, 1#8)] 255#8 2#8) ∧
    ∀ a, Memory.read [(0, 1#8), (255, 2#8)] a = Memory.read (Memory.write [(0, 1#8)] 255#8 2#8) a :=
  ⟨by decide, by decide, fun _ => rfl⟩

theorem test_witness_Mask3UsesLowBits : ({ cfg with regIndexPolicy := .mask3 } : Config).regIndexPolicy = .mask3 := rfl

theorem test_witness_PolicyIrrelevantWhenWellFormed : (Instr.mul 7#8 0#8).wellFormed = true := by decide

/-- A second valid map: LDI and MUL exchanged. -/
theorem test_witness_OpcodeBytesIrrelevantToMeaning : cfg.opc.Valid ∧
    ({ defaultOpcodes with ldi := defaultOpcodes.mul, mul := defaultOpcodes.ldi } : OpcodeMap).Valid ∧
    (Instr.ldi 7#8 255#8).wellFormed = true := by decide

theorem test_witness_LoadWritesImage : (List.replicate 256 1#8).length ≤ 256 ∧
    (∃ a : Byte, ∀ k < [1#8].length, a ≠ 255#8 + BitVec.ofNat 8 k) := ⟨by rw [List.length_replicate], 0#8, by decide⟩

theorem test_witness_RefusedLoads : 256 < (List.replicate 257 1#8).length := by
  rw [List.length_replicate]; decide

theorem test_witness_LaunchState : cfg.programBase = 0#8 ∧ (List.replicate 256 1#8).length ≤ 256 :=
  ⟨rfl, by rw [List.length_replicate]⟩

theorem test_witness_ReadBackAfterRun : Ended State.reset.halt ∧ State.reset.run = .running := by
  simp [Ended, State.reset, State.resetIn]

theorem test_witness_DecimalIsFaithful : (decimal 0#8).head? = some 0x30#8 := by decide

end Sys2Proof.Tests
end

section
/-! SUPPORT. Proofs of the family 10_state: the pc after a step (R12, R59) and the flag (R13). -/

namespace Sys2Proof.Machine

/-! ## Steps of well-formed instructions and of unknown opcodes -/

/-- The only change an instruction's own effect makes to the run state is HLT's. -/
theorem Effect.run_eq {c : Config} {s t : State} {i : Instr} (h : Effect c s i t) :
    t.run = if i = .hlt then .halted else s.run := by
  cases h <;> simp

/-- A well-formed instruction has its effect and then the next pc: it never raises (R85). -/
theorem execIn_of_wellFormed (c : Config) {i : Instr} (s : State) (hw : i.wellFormed = true) :
    ∃ t, Effect c s i t ∧ execIn c i s = t.nextPc (c.opc.byte i.mnemonic) s.pc := by
  obtain h | ⟨-, b, hb, -⟩ := execIn_cases c i s
  · exact h
  · have hall : ∀ x ∈ i.registerOperands, namesRegister x = true := List.all_eq_true.mp hw
    have hbad : namesRegister b = false := by simpa using List.find?_some hb
    simp [hall b (List.mem_of_find?_eq_some hb)] at hbad

theorem stepIn_of_decode {c : Config} {s : State} {i : Instr} (hr : s.run = .running)
    (hd : decode c.opc s.fetch = .ok i) : stepIn c s = execIn c i s := by
  simp [stepIn, hr, hd]

theorem stepIn_of_unknown {c : Config} {s : State} (hr : s.run = .running)
    (hl : c.opc.lookup s.fetch.ir = none) :
    stepIn c s = s.raise (.unknownOpcode s.pc s.fetch.ir) := by
  simp [stepIn, hr, decode_error_iff.mpr ⟨hl, rfl⟩, State.rejectDecode]

/-! ## The pc after a step -/

/-- A step that raises leaves the pc (R59, R60). -/
theorem stepIn_pc_of_faulted {c : Config} {s : State} (hr : s.run = .running)
    (hf : (stepIn c s).run = .faulted) : (stepIn c s).pc = s.pc := by
  obtain ⟨hn, -⟩ | ⟨-, i, -, he⟩ | ⟨-, -, he⟩ := stepIn_cases c s
  · exact absurd hr hn
  · rw [he] at hf ⊢
    obtain ⟨t, ht, hu⟩ | ⟨-, b, -, hu⟩ := execIn_cases c i s
    · rw [hu, State.nextPc_run, ht.run_eq, hr] at hf
      split at hf <;> cases hf
    · rw [hu, State.raise_pc]
  · rw [he, State.raise_pc]

/-- While the machine still runs and the sets-PC bit is 0, the pc advances by the operand count plus 1
(R59). -/
theorem stepIn_pc_of_sequential {c : Config} {s : State} (hr : s.run = .running)
    (ht : (stepIn c s).run = .running) (hc : setsPcBit s.fetch.ir = false) :
    (stepIn c s).pc.toNat = (s.pc.toNat + ((operandCountField s.fetch.ir).toNat + 1)) % 256 := by
  obtain ⟨hn, -⟩ | ⟨-, i, hd, he⟩ | ⟨-, -, he⟩ := stepIn_cases c s
  · exact absurd hr hn
  · rw [he] at ht ⊢
    obtain ⟨t, -, hu⟩ | ⟨-, b, -, hu⟩ := execIn_cases c i s
    · rw [hu, (byte_of_decode hd).1] at ht ⊢
      rw [State.nextPc_of_sequential s.pc (by simpa using ht) hc, State.setPc_pc, sequentialPc_toNat]
    · simp [hu] at ht
  · simp [he] at ht

section
variable {c : Config} {s : State} {i : Instr}

/-- A well-formed instruction other than HLT that does not set the pc advances past its own bytes (R12). -/
theorem stepIn_pc_of_wellFormed (hv : c.opc.Valid) (hr : s.run = .running)
    (hd : decode c.opc s.fetch = .ok i) (hw : i.wellFormed = true) (hh : i ≠ .hlt)
    (hc : i.mnemonic.setsPc = false) :
    (stepIn c s).pc.toNat = (s.pc.toNat + (i.mnemonic.operandCount + 1)) % 256 := by
  have hrun : (stepIn c s).run = .running := by
    obtain ⟨t, ht, hu⟩ := execIn_of_wellFormed c s hw
    rw [stepIn_of_decode hr hd, hu, State.nextPc_run, ht.run_eq, if_neg hh, hr]
  have hir := (byte_of_decode hd).1
  rw [stepIn_pc_of_sequential hr hrun (by rw [← hir, hv.setsPc, hc]), ← hir, hv.operandCount]

/-- A well-formed instruction that sets the pc is its effect: part 5 of the step adds nothing (R59). -/
theorem effect_stepIn_of_setsPc (hv : c.opc.Valid) (hr : s.run = .running)
    (hd : decode c.opc s.fetch = .ok i) (hw : i.wellFormed = true) (hc : i.mnemonic.setsPc = true) :
    Effect c s i (stepIn c s) := by
  obtain ⟨t, ht, hu⟩ := execIn_of_wellFormed c s hw
  rwa [stepIn_of_decode hr hd, hu, State.nextPc_of_setsPc _ _ (by rw [hv.setsPc, hc])]

end

section
variable {c : Config} {s t : State} {r : RegIndex}

theorem Effect.jmp_pc (h : Effect c s (.jmp (registerByte r)) t) : t.pc = s.reg r := by
  cases h with
  | jmp hr =>
    obtain rfl : r = _ := by simpa using hr
    rfl

theorem Effect.jeq_pc (h : Effect c s (.jeq (registerByte r)) t) :
    t.pc.toNat = if s.fl = true then (s.reg r).toNat else (s.pc.toNat + 2) % 256 := by
  cases h with
  | jeq hr =>
    obtain rfl : r = _ := by simpa using hr
    cases s.fl <;> simp [BitVec.toNat_add]

theorem Effect.jne_pc (h : Effect c s (.jne (registerByte r)) t) :
    t.pc.toNat = if s.fl = false then (s.reg r).toNat else (s.pc.toNat + 2) % 256 := by
  cases h with
  | jne hr =>
    obtain rfl : r = _ := by simpa using hr
    cases s.fl <;> simp [BitVec.toNat_add]

end

/-- Settles O11: the sequential rows are `stepIn_pc_of_wellFormed`, the jumps' rows their effects. -/
theorem pcUpdateTable : Obligations.PcUpdateTable := by
  intro c hv s hr
  refine ⟨fun hl => by rw [stepIn_of_unknown hr hl, State.raise_pc], stepIn_pc_of_faulted hr,
    stepIn_pc_of_sequential hr, fun i hd hw => ?_⟩
  have hseq := stepIn_pc_of_wellFormed hv hr hd hw
  have hjump := effect_stepIn_of_setsPc hv hr hd hw
  cases i with
  | ldi | mul | add | cmp | prn | pra | push | pop => exact hseq (by simp) rfl
  | jmp rt => rintro r rfl; exact (hjump rfl).jmp_pc
  | jeq rt => rintro r rfl; exact (hjump rfl).jeq_pc
  | jne rt => rintro r rfl; exact (hjump rfl).jne_pc
  | hlt => simp [stepIn_of_decode hr hd, execIn, hltIn]

/-! ## The flag -/

/-- The states agree in everything but FL. -/
def SameButFl (s t : State) : Prop := t.setFl false = s.setFl false

theorem SameButFl.pc {s t : State} (h : SameButFl s t) : s.pc = t.pc := (congrArg State.pc h.symm :)

theorem SameButFl.raise {s t : State} (h : SameButFl s t) (x : Cause) :
    SameButFl (s.raise x) (t.raise x) := congrArg (State.raise · x) h

theorem State.nextPc_setFl (s : State) (ir pc0 : Byte) (f : Bool) :
    (s.nextPc ir pc0).setFl f = (s.setFl f).nextPc ir pc0 :=
  apply_ite (State.setFl · f) _ _ _

theorem SameButFl.nextPc {s t : State} (h : SameButFl s t) (ir pc0 : Byte) :
    SameButFl (s.nextPc ir pc0) (t.nextPc ir pc0) := by
  unfold SameButFl at h ⊢
  rw [State.nextPc_setFl, State.nextPc_setFl, h]

theorem sameButFl_setFl (s : State) (f : Bool) : SameButFl s (s.setFl f) := rfl

/-- Resolving an operand does not read FL: if what follows agrees but for FL, so does the whole. -/
theorem SameButFl.withReg {s t : State} (h : SameButFl s t) (c : Config) (ir b : Byte)
    {body body' : RegIndex → State} (hbody : ∀ r, SameButFl (body r) (body' r)) :
    SameButFl (s.withReg c ir b body) (t.withReg c ir b body') := by
  unfold State.withReg
  cases regIndex c.regIndexPolicy b with
  | some r => exact hbody r
  | none =>
    rw [← h.pc]
    exact h.raise _

/-- Only JEQ and JNE read FL (R13). -/
theorem execIn_setFl_sameButFl (c : Config) (s : State) (f : Bool) {i : Instr}
    (hjeq : i.mnemonic ≠ .jeq) (hjne : i.mnemonic ≠ .jne) :
    SameButFl (execIn c i s) (execIn c i (s.setFl f)) := by
  have hs := sameButFl_setFl s f
  cases i with
  | ldi | prn | pra | push | pop | jmp =>
    refine SameButFl.nextPc (hs.withReg c _ _ fun _ => ?_) _ _
    exact rfl
  | mul | add | cmp =>
    refine SameButFl.nextPc (hs.withReg c _ _ fun _ => hs.withReg c _ _ fun _ => ?_) _ _
    exact rfl
  | hlt => exact SameButFl.nextPc (s := s.halt) rfl c.opc.hlt s.pc
  | jeq => exact absurd rfl hjeq
  | jne => exact absurd rfl hjne

/-- Only CMP writes FL (R13). -/
theorem execIn_fl_of_ne_cmp (c : Config) (s : State) {i : Instr} (hi : i.mnemonic ≠ .cmp) :
    (execIn c i s).fl = s.fl := by
  obtain ⟨t, ht, hu⟩ | ⟨-, b, -, hu⟩ := execIn_cases c i s
  · rw [hu, State.nextPc_fl]
    cases ht with
    | cmp => exact absurd rfl hi
    | _ => rfl
  · rw [hu, State.raise_fl]

/-- CMP of two registers writes FL to their equality (R76). -/
theorem execIn_cmp_fl (c : Config) (s : State) (a b : RegIndex) :
    (execIn c (.cmp (registerByte a) (registerByte b)) s).fl = (s.reg a == s.reg b) := by
  simp [execIn, cmpIn, equalFlag]

/-- Settles O24: `execIn_fl_of_ne_cmp`, `execIn_cmp_fl` and `execIn_setFl_sameButFl` at the default
configuration. -/
theorem flagWrittenByCmpReadByBranches : Obligations.FlagWrittenByCmpReadByBranches := by
  refine ⟨rfl, fun s i => ⟨_, exec_eq i s, execIn_fl_of_ne_cmp cfg s, ?_, fun hjeq hjne f =>
    ⟨_, exec_eq i _, execIn_setFl_sameButFl cfg s f hjeq hjne, ?_⟩⟩⟩
  · rintro a b rfl
    simp [execIn_cmp_fl]
  · rintro a b rfl
    simp [execIn_cmp_fl]

end Sys2Proof.Machine
end

section
/-! SUPPORT. Proofs of the family 20_memory: what a read gives after any writes (R25), and what a store
changes (R26). -/

namespace Sys2Proof.Machine

/-! ## Reads after any writes -/

/-- After any writes a read gives the value of the last one made to its cell, or what stood there before.
The induction is on the writes from the last one back. -/
theorem Memory.read_foldl_write (m : Memory) (writes : List (Byte × Byte)) (a : Byte) :
    (writes.foldl (fun (m : Memory) w => m.write w.1 w.2) m).read a =
      ((writes.reverse.find? fun w => w.1 == a).map Prod.snd).getD (m.read a) := by
  induction writes using List.reverseRecOn with
  | nil => rfl
  | append_singleton ws w ih =>
    rw [List.foldl_concat, Memory.read_write, List.reverse_concat]
    by_cases h : a = w.1
    · simp [h]
    · simp [h, Ne.symm h, ih]

/-- A cell nothing has written since reset reads 0 (R21, R25). -/
theorem State.reset_read (a : Byte) : State.reset.mem.read a = 0#8 := rfl

/-- Settles O40: `Memory.read_foldl_write` from the reset memory. -/
theorem readGivesLatestWrite : Obligations.ReadGivesLatestWrite := by
  intro writes a
  rw [Memory.read_foldl_write, State.reset_read]

/-! ## What a store changes -/

section
variable (s : State) (p : Byte)

@[simp] theorem State.setPc_fetch_ir : (s.setPc p).fetch.ir = s.mem.read p := rfl
@[simp] theorem State.setPc_fetch_operandA : (s.setPc p).fetch.operandA = s.mem.read (p + 1#8) := rfl
@[simp] theorem State.setPc_fetch_operandB : (s.setPc p).fetch.operandB = s.mem.read (p + 2#8) := rfl

end

theorem State.store_read (s : State) (a v b : Byte) :
    (s.store a v).mem.read b = if b = a then v else s.mem.read b := Memory.read_write s.mem a b v

/-- Settles O41: `State.store_read`, at every address and at each of the three that a fetch reads. -/
theorem storeIsSeenByReadAndFetch : Obligations.StoreIsSeenByReadAndFetch := by
  intro s a v
  refine ⟨s.store_read a v, rfl, ?_, ?_, ?_⟩
  · rw [State.setPc_fetch_ir, State.store_read, if_pos rfl]
  · rw [State.setPc_fetch_operandA, State.store_read, if_pos (BitVec.sub_add_cancel a 1#8)]
  · rw [State.setPc_fetch_operandB, State.store_read, if_pos (BitVec.sub_add_cancel a 2#8)]

end Sys2Proof.Machine
end

section
/-! SUPPORT. Proofs of the family 30_encoding: an instruction decodes exactly when its encoding is the leading
fetched bytes, and its length stands in the opcode byte (R43). -/

namespace Sys2Proof

/-! ## Decoding and encoding -/

/-- The latched bytes in memory order (R39). -/
def Latches.bytes (l : Latches) : List Byte := [l.ir, l.operandA, l.operandB]

/-- Two latched operands give an instruction back exactly if its own operands are the leading ones of them:
the latches beyond its operand count are ignored (R44). -/
theorem instrOf_mnemonic_eq_iff {i : Instr} {a b : Byte} :
    instrOf i.mnemonic a b = i ↔ i.operands = [a, b].take i.mnemonic.operandCount := by
  cases i <;>
    simp [instrOf, Instr.mnemonic, Instr.operands, Mnemonic.operandCount, eq_comm (a := a), eq_comm (a := b)]

section
variable {m : OpcodeMap} {l : Latches} {i : Instr}

theorem decode_eq_ok_iff (hm : m.Valid) :
    decode m l = .ok i ↔ m.byte i.mnemonic = l.ir ∧ instrOf i.mnemonic l.operandA l.operandB = i := by
  constructor
  · intro h
    obtain ⟨hb, hi⟩ := byte_of_decode h
    exact ⟨hb, hi.symm⟩
  · rintro ⟨hb, hi⟩
    have hl : m.lookup l.ir = some i.mnemonic := hb ▸ OpcodeMap.lookup_byte hm i.mnemonic
    simp [decode, hl, hi]

/-- Under a valid map an instruction decodes exactly if its encoding is the latched bytes, cut to the length
that the opcode byte says (R43). -/
theorem decode_eq_ok_iff_encode_eq (hm : m.Valid) :
    decode m l = .ok i ↔ encode m i = l.bytes.take (lengthFromOpcode l.ir) := by
  rw [decode_eq_ok_iff hm, instrOf_mnemonic_eq_iff, encode, Latches.bytes, lengthFromOpcode,
    List.take_succ_cons, List.cons.injEq]
  refine and_congr_right fun hb => ?_
  rw [← hb, hm.operandCount]

/-- The length read from a decoded opcode byte is one more than its mnemonic's operand count (R40, R43). -/
theorem lengthFromOpcode_of_decode (hm : m.Valid) (h : decode m l = .ok i) :
    lengthFromOpcode l.ir = i.mnemonic.operandCount + 1 := by
  rw [← (byte_of_decode h).1, lengthFromOpcode, hm.operandCount]

end

/-! ## The fetched bytes -/

namespace Machine

/-- The leading fetched bytes are those at the pc, ascending modulo 256 (R54, R55). -/
theorem State.fetch_bytes_take (s : State) (n : Nat) :
    s.fetch.bytes.take n = (List.range (min n 3)).map fun k => s.mem.read (s.pc + BitVec.ofNat 8 k) := by
  have h : s.fetch.bytes = (List.range 3).map fun k => s.mem.read (s.pc + BitVec.ofNat 8 k) := by
    simp [Latches.bytes, State.fetch, List.range_succ]
  rw [h, ← List.map_take, List.take_range]

/-- The length is at least 1, so states that agree on that many bytes at the pc latch the same opcode. -/
theorem State.fetch_ir_congr {s t : State} (h : ∀ k < lengthFromOpcode s.fetch.ir,
    t.mem.read (t.pc + BitVec.ofNat 8 k) = s.mem.read (s.pc + BitVec.ofNat 8 k)) :
    t.fetch.ir = s.fetch.ir := by
  simpa [State.fetch] using h 0 (Nat.succ_pos _)

/-- States that agree on the bytes of an instruction at the pc decode alike. -/
theorem decode_fetch_congr {m : OpcodeMap} (hm : m.Valid) {s t : State} {i : Instr}
    (hd : decode m s.fetch = .ok i) (h : ∀ k < lengthFromOpcode s.fetch.ir,
      t.mem.read (t.pc + BitVec.ofNat 8 k) = s.mem.read (s.pc + BitVec.ofNat 8 k)) :
    decode m t.fetch = .ok i := by
  rw [decode_eq_ok_iff_encode_eq hm] at hd ⊢
  rw [hd, State.fetch_ir_congr h, State.fetch_bytes_take, State.fetch_bytes_take]
  refine List.map_congr_left fun k hk => (h k ?_).symm
  exact (List.mem_range.mp hk).trans_le (Nat.min_le_left _ _)

/-- Settles O2: the length is `lengthFromOpcode_of_decode`, the bytes `decode_eq_ok_iff_encode_eq`, and
every other state `decode_fetch_congr`. -/
theorem lengthFromOpcodeByte : Obligations.LengthFromOpcodeByte := by
  intro m hm s i hd
  refine ⟨?_, (decode_eq_ok_iff_encode_eq hm).mp hd, fun t => decode_fetch_congr hm hd⟩
  rw [lengthFromOpcode_of_decode hm hd]
  cases i <;> rfl

end Machine

end Sys2Proof
end

section
/-! SUPPORT. Proofs of the family 40_sequencer: the three bytes of a fetch and the addresses they are read
from (R54, R55). -/

namespace Sys2Proof.Machine

/-- An address counted in natural numbers modulo 256 is the 8-bit sum. -/
theorem ofNat_toNat_add_mod_256 (a : Byte) (n : Nat) :
    BitVec.ofNat 8 ((a.toNat + n) % 256) = a + BitVec.ofNat 8 n :=
  BitVec.eq_of_toNat_eq (by simp)

/-- Settles O6: the fetch adds in 8 bits, and `ofNat_toNat_add_mod_256` gives each operand's address. -/
theorem fetchReadsThreeBytes : Obligations.FetchReadsThreeBytes := by
  intro s
  rw [ofNat_toNat_add_mod_256, ofNat_toNat_add_mod_256]
  exact ⟨rfl, rfl, rfl⟩

end Sys2Proof.Machine
end

section
/-! SUPPORT. Proofs of the family 44_stack: what the stack primitives change and what they leave (R71, R72). -/

namespace Sys2Proof.Machine

theorem State.setReg_keepsRegsExcept (s : State) (r : RegIndex) (v : Byte) :
    KeepsRegsExcept [r] s (s.setReg r v) :=
  fun _ hq => s.setReg_reg_of_ne (List.ne_of_not_mem_cons hq) v

section
variable (c : Config) (s : State)

/-! ## Push -/

@[simp] theorem State.push_sp (v : Byte) : (s.push c v).sp c = s.sp c - 1#8 := by
  simp [State.push_eq, State.sp]

/-- The store of a push is to the cell under the old pointer, that is, at the moved one. -/
theorem State.push_read (v a : Byte) :
    (s.push c v).mem.read a = if a = s.sp c - 1#8 then v else s.mem.read a := by
  rw [State.push_eq, State.store_read, State.setReg_mem, State.sp]

theorem State.push_keepsRegsExcept (v : Byte) : KeepsRegsExcept [c.spIndex] s (s.push c v) := by
  intro q hq
  rw [State.push_eq, State.store_reg]
  exact s.setReg_keepsRegsExcept _ _ q hq

/-! ## Pop -/

@[simp] theorem State.pop_sp : (s.pop c).2.sp c = s.sp c + 1#8 := s.setReg_reg_same c.spIndex _

end

/-- Moving down by 1 in 8 bits is adding 255 modulo 256. -/
theorem toNat_sub_one (a : Byte) : (a - 1#8).toNat = (a.toNat + 255) % 256 := by
  rw [BitVec.toNat_sub, Nat.add_comm]
  rfl

/-! ## The obligations -/

/-- Settles O36: the pointer is `State.push_sp`, memory `State.push_read`, the other registers
`State.push_keepsRegsExcept`. -/
theorem pushPrimitive : Obligations.PushPrimitive := by
  intro c s v
  rw [State.push_sp]
  refine ⟨toNat_sub_one _, ?_, fun a ha => ?_, s.push_keepsRegsExcept c v, rfl, fun h0 => ?_⟩
  · rw [State.push_read, if_pos rfl]
  · rw [State.push_read, if_neg ha]
  · have hsp : s.sp c - 1#8 = 255#8 := by simp [h0]
    exact ⟨hsp, by rw [State.push_read, if_pos hsp.symm]⟩

/-- Settles O37: the pointer is `State.pop_sp`; only that register is written. -/
theorem popPrimitive : Obligations.PopPrimitive := by
  intro c s
  rw [State.pop_sp]
  refine ⟨rfl, BitVec.toNat_add _ _, s.setReg_keepsRegsExcept c.spIndex _, rfl, fun h255 => ?_⟩
  simp [h255]

end Sys2Proof.Machine
end

section
/-! SUPPORT. What a step can do, said once for the proofs below: an instruction's effect determines its
execution, a running machine takes an effect or raises a cause that holds, and a run of the core is `runIn`. -/

namespace Sys2Proof.Machine

/-! ## Register operands -/

/-- At the policy `fault` a register operand that resolves is the byte of that register (R46). -/
theorem regIndex_fault_eq_some {b : Byte} {r : RegIndex} :
    regIndex .fault b = some r ↔ b = registerByte r := by
  constructor
  · intro h
    have hb : namesRegister b = true := by
      by_contra hn
      simp [regIndex_eq_none.mpr ⟨rfl, eq_false_of_ne_true hn⟩] at h
    obtain ⟨q, rfl⟩ := registerByte_of_namesRegister hb
    rw [regIndex_registerByte] at h
    rw [Option.some.inj h]
  · rintro rfl
    exact regIndex_registerByte _ _

/-- An instruction is ill formed exactly if it has a first register operand above 7. -/
theorem wellFormed_eq_false_iff {i : Instr} :
    i.wellFormed = false ↔ ∃ b, i.registerOperands.find? (fun x => !namesRegister x) = some b := by
  rw [← Option.isSome_iff_exists, List.find?_isSome]
  simp [Instr.wellFormed]

/-! ## Effects -/

section
variable {c : Config} {s t : State} {i : Instr}

theorem State.withReg_of_eq_some {b : Byte} {r : RegIndex} (h : regIndex c.regIndexPolicy b = some r)
    (ir : Byte) (body : RegIndex → State) : s.withReg c ir b body = body r := by
  simp [State.withReg, h]

/-- Execution is the effect and then the next pc: the converse of the first case of `execIn_cases`. -/
theorem Effect.execIn_eq (h : Effect c s i t) : execIn c i s = t.nextPc (c.opc.byte i.mnemonic) s.pc := by
  cases h with
  | ldi h | prn h | pra h | pop h | jmp h | jeq h | jne h =>
    exact congrArg (State.nextPc · _ _) (State.withReg_of_eq_some h _ _)
  | push h =>
    rw [← State.push_eq]
    exact congrArg (State.nextPc · _ _) (State.withReg_of_eq_some h _ _)
  | mul h h' | add h h' | cmp h h' =>
    refine congrArg (State.nextPc · _ _) ((State.withReg_of_eq_some h _ _).trans ?_)
    exact State.withReg_of_eq_some h' _ _
  | hlt => rfl

/-- An instruction has an effect only if all its register operands resolve. -/
theorem Effect.resolves (h : Effect c s i t) :
    ∀ b ∈ i.registerOperands, (regIndex c.regIndexPolicy b).isSome := by
  cases h <;> simp_all [Instr.registerOperands]

theorem Effect.fault_eq (h : Effect c s i t) : t.fault = s.fault := by cases h <;> rfl

theorem Effect.mem_wf (h : Effect c s i t) (hs : s.mem.wf) : t.mem.wf := by
  cases h with
  | push => exact Memory.write_wf hs _ _
  | _ => exact hs

/-- At the policy `fault` the first register operand above 7 is raised (R84, R87). -/
theorem execIn_of_find?_eq_some {b : Byte} (hp : c.regIndexPolicy = .fault)
    (hb : i.registerOperands.find? (fun x => !namesRegister x) = some b) :
    execIn c i s = s.raise (.registerIndexOutOfRange s.pc (c.opc.byte i.mnemonic) b) := by
  obtain ⟨t, ht, -⟩ | ⟨-, b', hb', hu⟩ := execIn_cases c i s
  · have hn : regIndex c.regIndexPolicy b = none :=
      regIndex_eq_none.mpr ⟨hp, by simpa using List.find?_some hb⟩
    simpa [hn] using ht.resolves b (List.mem_of_find?_eq_some hb)
  · rw [hu, Option.some.inj (hb'.symm.trans hb)]

end

/-! ## Steps -/

theorem stepIn_of_not_running (c : Config) {s : State} (h : s.run ≠ .running) : stepIn c s = s := by
  obtain ⟨-, h'⟩ | ⟨h', -⟩ | ⟨h', -⟩ := stepIn_cases c s
  · exact h'
  · exact absurd h' h
  · exact absurd h' h

/-- A running machine steps by the effect of the decoded instruction and then the next pc, or it raises a
cause that holds. -/
theorem stepIn_running_cases (c : Config) {s : State} (hr : s.run = .running) :
    (∃ i t, decode c.opc s.fetch = .ok i ∧ Effect c s i t ∧ stepIn c s = t.nextPc s.fetch.ir s.pc) ∨
    (∃ x, CauseHolds c s x ∧ stepIn c s = s.raise x) := by
  obtain ⟨hn, -⟩ | ⟨-, i, hd, he⟩ | ⟨-, hl, he⟩ := stepIn_cases c s
  · exact absurd hr hn
  · have hir : c.opc.byte i.mnemonic = s.fetch.ir := (byte_of_decode hd).1
    obtain ⟨t, ht, hu⟩ | ⟨hp, b, hb, hu⟩ := execIn_cases c i s
    · exact .inl ⟨i, t, hd, ht, by rw [he, hu, hir]⟩
    · exact .inr ⟨.registerIndexOutOfRange s.pc s.fetch.ir b, ⟨rfl, rfl, hp, i, hd, hb⟩, by rw [he, hu, hir]⟩
  · exact .inr ⟨.unknownOpcode s.pc s.fetch.ir, ⟨rfl, rfl, hl⟩, he⟩

/-- No effect faults, so a step that ends FAULTED raised a cause that holds. -/
theorem stepIn_eq_raise_of_faulted {c : Config} {s : State} (hr : s.run = .running)
    (hf : (stepIn c s).run = .faulted) : ∃ x, CauseHolds c s x ∧ stepIn c s = s.raise x := by
  obtain ⟨i, t, -, ht, hu⟩ | h := stepIn_running_cases c hr
  · rw [hu, State.nextPc_run, ht.run_eq, hr] at hf
    split at hf <;> cases hf
  · exact h

/-- What a raise and a change of the pc leave alone, only the effect of a decoded instruction changes. -/
theorem effect_of_stepIn_ne {α : Type} (f : State → α) {c : Config} {s : State}
    (hraise : ∀ x, f (s.raise x) = f s) (hpc : ∀ (t : State) ir pc0, f (t.nextPc ir pc0) = f t)
    (h : f (stepIn c s) ≠ f s) :
    s.run = .running ∧ ∃ i t, decode c.opc s.fetch = .ok i ∧ Effect c s i t ∧ f (stepIn c s) = f t := by
  have hr : s.run = .running := by
    by_contra hn
    exact h (by rw [stepIn_of_not_running c hn])
  obtain ⟨i, t, hd, ht, hu⟩ | ⟨x, -, hu⟩ := stepIn_running_cases c hr
  · exact ⟨hr, i, t, hd, ht, by rw [hu, hpc]⟩
  · exact absurd (by rw [hu, hraise]) h

/-! ## Runs -/

theorem core_run_succ {M : Host.Core} {s t : M.State} (h : M.step s = .next t) (n : Nat) :
    M.run (n + 1) s = M.run n t := by
  rw [Host.Core.run, h]

/-- The host's run of the core answers a next state, that of `runIn`. -/
theorem run_core_eq (n : Nat) (s : State) : Host.Core.run core n s = .next (runIn cfg n s) := by
  induction n generalizing s with
  | zero => rfl
  | succ n ih => exact (core_run_succ (M := core) (step_eq s) n).trans (ih (stepIn cfg s))

theorem run_core_next_iff {n : Nat} {s t : State} :
    Host.Core.run core n s = .next t ↔ runIn cfg n s = t :=
  ⟨fun h => Host.Outcome.next.inj ((run_core_eq n s).symm.trans h), fun h => h ▸ run_core_eq n s⟩

theorem runIn_add (c : Config) (m n : Nat) (s : State) : runIn c (m + n) s = runIn c n (runIn c m s) := by
  induction m generalizing s with
  | zero => rw [Nat.zero_add]; rfl
  | succ m ih => rw [Nat.succ_add]; exact ih (stepIn c s)

theorem runIn_of_not_running (c : Config) {s : State} (h : s.run ≠ .running) (n : Nat) : runIn c n s = s := by
  induction n with
  | zero => rfl
  | succ n ih => rw [runIn, stepIn_of_not_running c h, ih]

/-- What holds of a state and is kept by every step holds after any number of steps. -/
theorem runIn_induction {c : Config} {P : State → Prop} (hstep : ∀ s, P s → P (stepIn c s)) {s : State}
    (h : P s) (n : Nat) : P (runIn c n s) := by
  induction n generalizing s with
  | zero => exact h
  | succ n ih => exact ih (hstep s h)

end Sys2Proof.Machine
end

section
/-! SUPPORT. Proofs about the opcode map and the decoder: decoding what encoding made (R42, R55), and which
bytes are rejected (R47, R50). -/

namespace Sys2Proof.Machine

/-! ## Decoding what encoding made -/

/-- An encoding is the opcode byte and its operands, at most two of them (R39). -/
theorem encode_length (m : OpcodeMap) (i : Instr) : (encode m i).length = i.mnemonic.operandCount + 1 := by
  cases i <;> rfl

theorem operandCount_le_two (k : Mnemonic) : k.operandCount ≤ 2 := by cases k <;> decide

/-- Where the bytes of an instruction stand at the pc, they are the leading fetched bytes. -/
theorem encode_eq_fetch_bytes_take {m : OpcodeMap} {i : Instr} {s : State}
    (h : ∀ k (hk : k < (encode m i).length), s.mem.read (s.pc + BitVec.ofNat 8 k) = (encode m i)[k]) :
    encode m i = s.fetch.bytes.take (encode m i).length := by
  have hmin : min (encode m i).length 3 = (encode m i).length := by
    have := operandCount_le_two i.mnemonic
    rw [encode_length]
    omega
  rw [State.fetch_bytes_take, hmin]
  refine List.ext_getElem (by simp) fun k hk _ => ?_
  simp [h k hk]

/-- Settles O1: the encoding is the leading fetched bytes, which is when an instruction decodes
(`decode_eq_ok_iff_encode_eq`). -/
theorem decodeFetchedEncoding : Obligations.DecodeFetchedEncoding := by
  intro m hm i s h
  have hir : m.byte i.mnemonic = s.fetch.ir := by simpa [encode, State.fetch] using (h 0 (by simp [encode])).symm
  have hlen : lengthFromOpcode s.fetch.ir = (encode m i).length := by
    rw [encode_length, lengthFromOpcode, ← hir, hm.operandCount]
  rw [decode_eq_ok_iff_encode_eq hm, hlen]
  exact encode_eq_fetch_bytes_take h

/-! ## Which bytes are rejected -/

theorem decode_error_iff_ne_byte {m : OpcodeMap} {l : Latches} :
    (∃ e, decode m l = .error e) ↔ ∀ k, m.byte k ≠ l.ir := by
  simp [decode_error_iff, OpcodeMap.lookup_eq_none]

/-- No opcode has the operand-count field 3 (R47). -/
theorem lookup_eq_none_of_count_three {m : OpcodeMap} (hm : m.Valid) {ir : Byte}
    (h : (operandCountField ir).toNat = 3) : m.lookup ir = none := by
  rw [OpcodeMap.lookup_eq_none]
  rintro k rfl
  have := operandCount_le_two k
  rw [hm.operandCount] at h
  omega

/-- The byte values that are opcodes are those of the twelve mnemonics, each once. -/
theorem opcode_values_perm {m : OpcodeMap} (hm : m.Valid) :
    ((List.range 256).filter fun n => (m.lookup (BitVec.ofNat 8 n)).isSome).Perm
      ((Mnemonic.all.map m.byte).map BitVec.toNat) := by
  refine (List.perm_ext_iff_of_nodup (List.nodup_range.filter _)
    (hm.1.map fun _ _ => BitVec.eq_of_toNat_eq)).mpr fun n => ?_
  simp only [List.mem_filter, List.mem_range, List.mem_map, exists_exists_and_eq_and]
  constructor
  · rintro ⟨hn, hl⟩
    obtain ⟨k, hk⟩ := Option.isSome_iff_exists.mp hl
    exact ⟨k, k.mem_all, by rw [OpcodeMap.byte_of_lookup hk]; simpa using hn⟩
  · rintro ⟨k, -, rfl⟩
    exact ⟨(m.byte k).isLt, by simp [OpcodeMap.lookup_byte hm]⟩

/-- Twelve byte values are opcodes, so 244 are none. -/
theorem length_filter_illegal {m : OpcodeMap} (hm : m.Valid) :
    ((List.range 256).filter fun n => (m.lookup (BitVec.ofNat 8 n)).isNone).length = 244 := by
  have hlegal := (opcode_values_perm hm).length_eq
  have hsplit := List.length_eq_length_filter_add (l := List.range 256)
    fun n => (m.lookup (BitVec.ofNat 8 n)).isSome
  simp only [Option.not_isSome, List.length_range, hlegal, List.length_map] at hsplit
  have hall : Mnemonic.all.length = 12 := rfl
  omega

/-- Settles O3: `decode_error_iff_ne_byte`, `lookup_eq_none_of_count_three` and `length_filter_illegal`. -/
theorem illegalBytesAreTheOthers : Obligations.IllegalBytesAreTheOthers := fun _ hm =>
  ⟨fun _ => decode_error_iff_ne_byte, fun _ => lookup_eq_none_of_count_three hm, length_filter_illegal hm⟩

/-! ## The default opcode bytes -/

/-- Settles O4: the model's own law of the default opcode map. -/
theorem defaultOpcodesMeetConstraint : Obligations.DefaultOpcodesMeetConstraint := defaultOpcodes_valid

/-- Settles O5: thirteen closed words. -/
theorem tableWordsDecode : Obligations.TableWordsDecode := by
  unfold Obligations.TableWordsDecode
  decide

end Sys2Proof.Machine
end

section
/-! SUPPORT. Proofs about the invariant of the machine: it holds after reset and after every load, and every
step keeps it (R16, R17, R102). -/

namespace Sys2Proof.Machine

/-! ## Every step keeps the invariant -/

section
variable {c : Config} {s t : State} {i : Instr}

theorem Invariant.fault_eq_none (h : Invariant c s) (hr : s.run = .running) : s.fault = none := by
  rw [← Option.not_isSome_iff_eq_none, h.latch, hr]
  exact RunState.noConfusion

/-- Canonical memory, an empty latch and RUNNING make the invariant. -/
theorem invariant_of_running (hm : s.mem.wf) (hf : s.fault = none) (hr : s.run = .running) : Invariant c s where
  memory := hm
  latch := by simp [hf, hr]
  cause := by simp [hf]
  halted := by simp [hr]

/-- A raise moves neither the pc nor a byte, so a cause that holds still does when it is latched (R60). -/
theorem invariant_raise {x : Cause} (hm : s.mem.wf) (hx : CauseHolds c s x) : Invariant c (s.raise x) where
  memory := hm
  latch := by simp
  cause := by
    rintro _ ⟨⟩
    exact hx
  halted := fun h => by cases h

/-- HLT leaves the pc at its own byte (R81). -/
theorem invariant_halt (hm : s.mem.wf) (hf : s.fault = none) (hd : decode c.opc s.fetch = .ok .hlt) :
    Invariant c s.halt where
  memory := hm
  latch := by simp [hf]
  cause := by simp [hf]
  halted := fun _ => (byte_of_decode hd).1.symm

/-- The effect of a decoded instruction and the next pc: HLT halts at its own byte, every other instruction
goes on running. -/
theorem Invariant.nextPc_effect (h : Invariant c s) (hr : s.run = .running)
    (hd : decode c.opc s.fetch = .ok i) (ht : Effect c s i t) (ir pc0 : Byte) :
    Invariant c (t.nextPc ir pc0) := by
  have hf := h.fault_eq_none hr
  by_cases hi : i = .hlt
  · subst hi
    cases ht
    rw [State.halt_nextPc]
    exact invariant_halt h.memory hf hd
  · refine invariant_of_running ?_ ?_ ?_
    · rw [State.nextPc_mem]
      exact ht.mem_wf h.memory
    · rw [State.nextPc_fault, ht.fault_eq, hf]
    · rw [State.nextPc_run, ht.run_eq, if_neg hi, hr]

theorem stepIn_invariant (h : Invariant c s) : Invariant c (stepIn c s) := by
  by_cases hr : s.run = .running
  · obtain ⟨i, t, hd, ht, hu⟩ | ⟨x, hx, hu⟩ := stepIn_running_cases c hr
    · rw [hu]
      exact h.nextPc_effect hr hd ht _ _
    · rw [hu]
      exact invariant_raise h.memory hx
  · rwa [stepIn_of_not_running c hr]

end

/-- Settles O32: `stepIn_invariant` at the default configuration. -/
theorem stepKeepsInvariant : Obligations.StepKeepsInvariant := by
  intro s t h hst
  rw [← step_next_iff.mp hst]
  exact stepIn_invariant h

/-! ## Reset, launch and every run after them -/

/-- Settles O33: reset is RUNNING with no byte listed and nothing latched. -/
theorem resetMeetsInvariant : Obligations.ResetMeetsInvariant := fun c =>
  invariant_of_running (State.resetIn_wf c) rfl rfl

/-- The stores of a load change memory alone (R98). -/
theorem State.storeImage_frame (s : State) (base : Byte) (bytes : List Byte) :
    s.storeImage base bytes = { s with mem := (s.storeImage base bytes).mem } := by
  induction bytes generalizing s base with
  | nil => rfl
  | cons b rest ih => exact ih (s.store base b) (base + 1#8)

theorem load_next_iff {bytes : List Byte} {base : Byte} {s t : State} :
    load bytes base s = .next t ↔ bytes.length ≤ 256 ∧ s.storeImage base bytes = t := by
  obtain ⟨hl, h⟩ | ⟨hl, h⟩ := load_cases bytes base s
  · simp [h, hl]
  · simp [h, Nat.not_le.mpr hl]

theorem launch_invariant {c : Config} {bytes : List Byte} {s : State} (h : launch c bytes = .next s) :
    Invariant c s := by
  have hwf := launch_wf h
  obtain ⟨-, rfl⟩ := load_next_iff.mp h
  rw [State.storeImage_frame] at hwf ⊢
  exact invariant_of_running hwf rfl rfl

/-- Settles O34: `launch_invariant`, kept along the run by `stepIn_invariant`. -/
theorem invariantOfEveryLaunch : Obligations.InvariantOfEveryLaunch := fun c _ n _ h =>
  runIn_induction (P := Invariant c) (fun _ => stepIn_invariant) (launch_invariant h) n

/-! ## The latch -/

/-- Settles O29: a state with a set latch no longer runs, and `Invariant.latch` of the next state says when
the latch is set. -/
theorem faultLatchWrittenOnce : Obligations.FaultLatchWrittenOnce := by
  refine fun s h => ⟨fun f n t hf hrun => ?_, fun t _ hst => (stepKeepsInvariant s t h hst).latch⟩
  have hr : s.run ≠ .running := fun hr => by simp [h.fault_eq_none hr] at hf
  rw [← run_core_next_iff.mp hrun, runIn_of_not_running cfg hr, hf]

end Sys2Proof.Machine
end

section
/-! SUPPORT. Proofs of the instructions' results: each is its effect followed by the advance of the pc, or,
for the jumps and HLT, the effect alone (R63 to R81). -/

namespace Sys2Proof.Machine

/-! ## An effect and the pc after it -/

/-- Under a valid map part 5 of a step advances a running machine by the operand count plus 1 (R59). -/
theorem State.nextPc_of_valid {m : OpcodeMap} (hm : m.Valid) {k : Mnemonic} (hk : k.setsPc = false) {s : State}
    (hr : s.run = .running) (pc0 : Byte) :
    s.nextPc (m.byte k) pc0 = s.setPc (pc0 + BitVec.ofNat 8 (k.operandCount + 1)) := by
  have hpc : sequentialPc (m.byte k) pc0 = pc0 + BitVec.ofNat 8 (k.operandCount + 1) := by
    rw [← ofNat_toNat_add_mod_256, ← hm.operandCount, ← sequentialPc_toNat, BitVec.ofNat_toNat, BitVec.setWidth_eq]
  rw [State.nextPc_of_sequential pc0 hr (by rw [hm.setsPc, hk]), hpc]

theorem cfg_opc_valid : cfg.opc.Valid := defaultOpcodes_valid

section
variable {s t : State} {i : Instr}

theorem Effect.exec_eq_advance (h : Effect cfg s i t) (hr : t.run = .running) (hk : i.mnemonic.setsPc = false) :
    exec i s = .next (t.setPc (s.pc + BitVec.ofNat 8 (i.mnemonic.operandCount + 1))) := by
  rw [exec_eq, h.execIn_eq, State.nextPc_of_valid cfg_opc_valid hk hr]

theorem Effect.exec_eq_jump (h : Effect cfg s i t) (hk : i.mnemonic.setsPc = true) : exec i s = .next t := by
  rw [exec_eq, h.execIn_eq, State.nextPc_of_setsPc _ _ ((cfg_opc_valid.setsPc _).trans hk)]

end

section
variable (c : Config) (s : State) (r : RegIndex)

theorem effect_push : Effect c s (.push (registerByte r)) (s.push c (s.reg r)) := by
  rw [State.push_eq]
  exact .push (regIndex_registerByte _ r)

theorem effect_pop : Effect c s (.pop (registerByte r)) ((s.pop c).2.setReg r (s.pop c).1) :=
  .pop (regIndex_registerByte _ r)

end

/-! ## LDI and the output -/

/-- Settles O13: the effect is one register write. -/
theorem ldiResult : Obligations.LdiResult := fun s r imm hr =>
  have he : Effect cfg s (.ldi (registerByte r) imm) (s.setReg r imm) := .ldi (regIndex_registerByte _ r)
  ⟨_, he.exec_eq_advance hr rfl, s.setReg_reg_same r imm, s.setReg_keepsRegsExcept r imm,
    BitVec.toNat_add _ _, rfl, fun _ => rfl, rfl, rfl, rfl⟩

/-- Settles O14: the effect is one event. -/
theorem prnPraResult : Obligations.PrnPraResult := by
  rintro s r hr i kind (⟨rfl, rfl⟩ | ⟨rfl, rfl⟩)
  · have he : Effect cfg s (.prn (registerByte r)) (s.emit .prn (s.reg r)) := .prn (regIndex_registerByte _ r)
    exact ⟨_, he.exec_eq_advance hr rfl, rfl, fun _ _ => rfl, BitVec.toNat_add _ _, rfl, fun _ => rfl, rfl, rfl⟩
  · have he : Effect cfg s (.pra (registerByte r)) (s.emit .pra (s.reg r)) := .pra (regIndex_registerByte _ r)
    exact ⟨_, he.exec_eq_advance hr rfl, rfl, fun _ _ => rfl, BitVec.toNat_add _ _, rfl, fun _ => rfl, rfl, rfl⟩

/-! ## The ALU -/

/-- Settles O35: the result in 8 bits is the exact one modulo 256, and one register is written. -/
theorem aluApplies : Obligations.AluApplies := by
  intro s op d src
  refine ⟨?_, s.setReg_keepsRegsExcept d _, rfl⟩
  rw [State.applyAlu, State.setReg_reg_same]
  cases op with
  | multiply => exact BitVec.toNat_mul _ _
  | add => exact BitVec.toNat_add _ _

/-- Settles O15: the effect is the ALU's multiplication (`aluApplies`). -/
theorem mulResult : Obligations.MulResult := fun s a b hr =>
  have he : Effect cfg s (.mul (registerByte a) (registerByte b)) (s.applyAlu .multiply a b) :=
    .mul (regIndex_registerByte _ a) (regIndex_registerByte _ b)
  have ⟨hvalue, hregs, _⟩ := aluApplies s .multiply a b
  ⟨_, he.exec_eq_advance hr rfl, hvalue, hregs, BitVec.toNat_add _ _, rfl, fun _ => rfl, rfl, rfl, rfl⟩

/-- Settles O16: the effect is the ALU's addition (`aluApplies`). -/
theorem addResult : Obligations.AddResult := fun s a b hr =>
  have he : Effect cfg s (.add (registerByte a) (registerByte b)) (s.applyAlu .add a b) :=
    .add (regIndex_registerByte _ a) (regIndex_registerByte _ b)
  have ⟨hvalue, hregs, _⟩ := aluApplies s .add a b
  ⟨_, he.exec_eq_advance hr rfl, hvalue, hregs, BitVec.toNat_add _ _, rfl, fun _ => rfl, rfl, rfl, rfl⟩

/-! ## The stack instructions -/

/-- Settles O17: the effect is the stack primitive (`State.push_sp`, `State.push_read`). -/
theorem pushResult : Obligations.PushResult := by
  intro s r hr
  refine ⟨_, (effect_push cfg s r).exec_eq_advance hr rfl, ?_,
    s.push_keepsRegsExcept cfg (s.reg r), ?_, fun a ha => ?_, BitVec.toNat_add _ _, rfl, rfl, rfl, rfl⟩
  · exact (congrArg BitVec.toNat (s.push_sp cfg (s.reg r))).trans (toNat_sub_one _)
  · rw [State.setPc_mem, State.push_read, if_pos rfl]
  · rw [State.setPc_mem, State.push_read, if_neg ha]

/-- Settles O18: the effect is the stack primitive and then the write of the popped register, so the write
stands where both are the stack pointer (D17). -/
theorem popResult : Obligations.PopResult := by
  intro s r hr
  refine ⟨_, (effect_pop cfg s r).exec_eq_advance hr rfl, State.setReg_reg_same _ r _, fun hne => ?_,
    fun q hq => ?_, fun _ => rfl, BitVec.toNat_add _ _, rfl, rfl, rfl, rfl⟩
  · rw [State.setPc_reg, State.setReg_reg_of_ne _ hne.symm]
    exact (congrArg BitVec.toNat (s.pop_sp cfg)).trans (BitVec.toNat_add _ _)
  · rw [State.setPc_reg, State.setReg_reg_of_ne _ (List.ne_of_not_mem_cons hq)]
    exact s.setReg_keepsRegsExcept cfg.spIndex _ q (List.not_mem_of_not_mem_cons hq)

/-- A pop after a push gives every register back, the stack pointer among them. -/
theorem State.push_pop_reg (c : Config) (s : State) (v : Byte) (q : RegIndex) :
    ((s.push c v).pop c).2.reg q = s.reg q := by
  by_cases hq : q = c.spIndex
  · subst hq
    exact ((s.push c v).pop_sp c).trans (by rw [State.push_sp, BitVec.sub_add_cancel]; rfl)
  · rw [State.pop_eq, State.setReg_reg_of_ne _ hq, State.push_eq, State.store_reg, State.setReg_reg_of_ne _ hq]

theorem State.push_pop_value (c : Config) (s : State) (v : Byte) : ((s.push c v).pop c).1 = v := by
  rw [State.pop_eq]
  exact (s.push_read c v _).trans (if_pos (s.push_sp c v))

/-- Settles O39: `State.push_pop_value` is what POP writes, `State.push_pop_reg` the rest. -/
theorem pushThenPopMoves : Obligations.PushThenPopMoves := by
  intro s p q hr
  refine ⟨_, _, (effect_push cfg s p).exec_eq_advance hr rfl, (effect_pop cfg _ q).exec_eq_advance hr rfl,
    ?_, fun r hne => ?_⟩
  · rw [State.setPc_reg, State.setReg_reg_same]
    exact s.push_pop_value cfg (s.reg p)
  · rw [State.setPc_reg, State.setReg_reg_of_ne _ hne]
    exact s.push_pop_reg cfg (s.reg p) r

/-- Settles O42: the step is the PUSH that was fetched, and a later fetch reads the memory it left
(`State.push_read`). -/
theorem pushOverOwnBytes : Obligations.PushOverOwnBytes := by
  intro s r hr hd
  have hstep : step s = exec (.push (registerByte r)) s := by
    rw [step_eq, exec_eq, stepIn_of_decode hr hd]
  have hread (a : Byte) := s.push_read cfg (s.reg r) a
  refine ⟨_, hstep.trans ((effect_push cfg s r).exec_eq_advance hr rfl), ?_, rfl, ?_, fun p hp => ?_⟩
  · exact (hread _).trans (if_pos rfl)
  · exact (hread _).trans (if_pos rfl)
  · exact (hread p).trans (if_neg hp)

/-! ## CMP, the jumps and HLT -/

/-- Settles O19: two bytes are equal exactly if their eight bits agree. -/
theorem cmpResult : Obligations.CmpResult := fun s a b hr =>
  have he : Effect cfg s (.cmp (registerByte a) (registerByte b)) (s.setFl (s.reg a == s.reg b)) :=
    .cmp (regIndex_registerByte _ a) (regIndex_registerByte _ b)
  ⟨_, he.exec_eq_advance hr rfl, beq_iff_eq.trans BitVec.eq_of_getLsbD_eq_iff, fun _ _ => rfl,
    BitVec.toNat_add _ _, fun _ => rfl, rfl, rfl, rfl⟩

theorem exec_jmp (s : State) (r : RegIndex) : exec (.jmp (registerByte r)) s = .next (s.setPc (s.reg r)) :=
  (Effect.jmp (regIndex_registerByte _ r)).exec_eq_jump rfl

/-- The pc a jump assigns, on natural numbers: the register's value, or the address 2 on. -/
theorem jump_target_toNat (taken : Bool) (x pc : Byte) :
    (if taken then x else pc + 2#8).toNat = if taken then x.toNat else (pc.toNat + 2) % 256 := by
  rw [apply_ite BitVec.toNat, BitVec.toNat_add]
  rfl

/-- Settles O20: each jump's effect is one assignment of the pc (`jump_target_toNat`). -/
theorem jumpResults : Obligations.JumpResults := by
  rintro s r - i taken (⟨rfl, rfl⟩ | ⟨rfl, rfl⟩ | ⟨rfl, rfl⟩)
  · exact ⟨_, exec_jmp s r, rfl, fun _ _ => rfl, rfl, fun _ => rfl, rfl, rfl, rfl⟩
  · have he := Effect.jeq (s := s) (regIndex_registerByte cfg.regIndexPolicy r)
    exact ⟨_, he.exec_eq_jump rfl, jump_target_toNat _ _ _, fun _ _ => rfl, rfl, fun _ => rfl, rfl, rfl, rfl⟩
  · have he := Effect.jne (s := s) (regIndex_registerByte cfg.regIndexPolicy r)
    exact ⟨_, he.exec_eq_jump rfl, jump_target_toNat _ _ _, fun _ _ => rfl, rfl, fun _ => rfl, rfl, rfl, rfl⟩

/-- Settles O21: the effect halts, and a halted machine does not advance (`State.halt_nextPc`). -/
theorem hltResult : Obligations.HltResult := by
  intro s
  rw [exec_eq, Effect.hlt.execIn_eq, State.halt_nextPc]
  rfl

end Sys2Proof.Machine
end

section
/-! SUPPORT. Proofs about the step and its exceptions: what it runs, when it halts or faults, what a raise
changes, and that a stopped machine stays as it is (R53 to R62, R82 to R85). -/

namespace Sys2Proof.Machine

/-! ## Steps and runs -/

/-- Settles O7: `stepIn_of_decode` at the default configuration. -/
theorem stepRunsDecodedInstruction : Obligations.StepRunsDecodedInstruction := by
  intro s i hr hd
  rw [step_eq, exec_eq, stepIn_of_decode hr hd]

/-- Settles O8: a byte that is no opcode is not found, and the step raises (`stepIn_of_unknown`). -/
theorem unknownOpcodeLatches : Obligations.UnknownOpcodeLatches := by
  intro s hr h
  rw [step_eq, stepIn_of_unknown hr (OpcodeMap.lookup_eq_none.mpr h)]
  rfl

/-- Settles O9: `runIn_of_not_running`. -/
theorem haltedAndFaultedAbsorb : Obligations.HaltedAndFaultedAbsorb := by
  refine fun s hr => ⟨fun n => ?_, fun t ht => hr ht.1⟩
  rw [run_core_next_iff, runIn_of_not_running cfg hr]

/-- Settles O10: the host's run is `runIn`, which composes (`runIn_add`). -/
theorem runsComposeAndNeverStop : Obligations.RunsComposeAndNeverStop := by
  refine fun s m n => ⟨_, _, run_core_eq m s, run_core_eq n _, ?_⟩
  rw [run_core_eq, runIn_add]

/-! ## Exceptions -/

/-- Settles O12: the step raised (`stepIn_eq_raise_of_faulted`). -/
theorem faultsArePrecise : Obligations.FaultsArePrecise := by
  intro s t hr hst hf
  obtain rfl := step_next_iff.mp hst
  obtain ⟨x, -, hu⟩ := stepIn_eq_raise_of_faulted hr hf
  rw [hu]
  exact ⟨rfl, rfl⟩

/-- Settles O22: `execIn_of_find?_eq_some` at the default policy. -/
theorem registerOperandOutOfRangeTraps : Obligations.RegisterOperandOutOfRangeTraps := by
  intro s i b hb
  rw [exec_eq, execIn_of_find?_eq_some rfl hb]
  rfl

/-- Settles O23: a well-formed instruction has an effect, and no effect faults or writes the latch; a jump
only assigns the pc (`exec_jmp`). -/
theorem wellFormedNeverRaises : Obligations.WellFormedNeverRaises := by
  refine ⟨fun s i hw => ?_, fun s t r hr hj hl => ?_⟩
  · obtain ⟨t, ht, hu⟩ := execIn_of_wellFormed cfg s hw
    refine ⟨_, exec_eq i s, ?_, fun hf => ?_⟩
    · rw [hu, State.nextPc_fault, ht.fault_eq]
    · rw [hu, State.nextPc_run, ht.run_eq] at hf
      split at hf
      · cases hf
      · exact hf
  · obtain rfl : s.setPc (s.reg r) = t := by simpa [exec_jmp] using hj
    refine ⟨rfl, ?_⟩
    exact (step_eq _).trans (congrArg _ (stepIn_of_unknown (s := s.setPc (s.reg r)) hr hl))

/-! ## The run state -/

/-- A running machine halts only by HLT. -/
theorem stepIn_halted_iff {c : Config} {s : State} (hr : s.run = .running) :
    (stepIn c s).run = .halted ↔ decode c.opc s.fetch = .ok .hlt := by
  constructor
  · intro h
    obtain ⟨i, t, hd, ht, hu⟩ | ⟨x, -, hu⟩ := stepIn_running_cases c hr
    · rw [hu, State.nextPc_run, ht.run_eq, hr] at h
      split at h
      · next hi => rw [hd, hi]
      · cases h
    · rw [hu] at h
      cases h
  · intro hd
    rw [stepIn_of_decode hr hd, Effect.hlt.execIn_eq, State.halt_nextPc, State.halt_run]

/-- A running machine at the policy `fault` faults only by an unknown opcode or an ill-formed instruction. -/
theorem stepIn_faulted_iff {c : Config} {s : State} (hp : c.regIndexPolicy = .fault) (hr : s.run = .running) :
    (stepIn c s).run = .faulted ↔ c.opc.lookup s.fetch.ir = none ∨
      ∃ i, decode c.opc s.fetch = .ok i ∧ i.wellFormed = false := by
  constructor
  · intro h
    obtain ⟨x, hx, -⟩ := stepIn_eq_raise_of_faulted hr h
    cases x with
    | unknownOpcode pc ir =>
      obtain ⟨-, rfl, hl⟩ := hx
      exact .inl hl
    | registerIndexOutOfRange pc ir b =>
      obtain ⟨-, -, -, i, hd, hb⟩ := hx
      exact .inr ⟨i, hd, wellFormed_eq_false_iff.mpr ⟨b, hb⟩⟩
  · rintro (hl | ⟨i, hd, hw⟩)
    · rw [stepIn_of_unknown hr hl, State.raise_run]
    · obtain ⟨b, hb⟩ := wellFormed_eq_false_iff.mp hw
      rw [stepIn_of_decode hr hd, execIn_of_find?_eq_some hp hb, State.raise_run]

/-- Settles O28: `stepIn_halted_iff` and `stepIn_faulted_iff`. -/
theorem runStateChangesOnlyByHltOrRaise : Obligations.RunStateChangesOnlyByHltOrRaise := by
  intro s t hr hst
  rw [← step_next_iff.mp hst]
  exact ⟨stepIn_halted_iff hr, stepIn_faulted_iff rfl hr⟩

end Sys2Proof.Machine
end

section
/-! SUPPORT. Proofs about what a step writes and reads: memory, registers and the output stream each change
only by the effect of an instruction that names them (R9, R18, R23). -/

namespace Sys2Proof.Machine

section
variable {c : Config} {s t : State} {i : Instr}

/-! ## What an effect changes -/

/-- Only PUSH writes memory, and only the byte under the stack pointer (R23, R73). -/
theorem Effect.mem_read_ne (h : Effect c s i t) {a : Byte} (ha : t.mem.read a ≠ s.mem.read a) :
    a = s.sp c - 1#8 ∧ ∃ b r, i = .push b ∧ regIndex c.regIndexPolicy b = some r ∧ t.mem.read a = s.reg r := by
  cases h with
  | push hr =>
    rw [← State.push_eq, State.push_read] at ha ⊢
    split at ha
    · next hsp => exact ⟨hsp, _, _, rfl, hr, if_pos hsp⟩
    · exact absurd rfl ha
  | _ => exact absurd rfl ha

/-- A register is written by LDI, MUL, ADD or POP that names it first, or it is the stack pointer and the
instruction is PUSH or POP (R9, R10). -/
theorem Effect.reg_ne (h : Effect c s i t) {q : RegIndex} (hq : t.reg q ≠ s.reg q) :
    (∃ x, regIndex c.regIndexPolicy x = some q ∧
      ((∃ b, i = .ldi x b ∨ i = .mul x b ∨ i = .add x b) ∨ i = .pop x)) ∨
    (q = c.spIndex ∧ (i.mnemonic = .push ∨ i.mnemonic = .pop)) := by
  have hset {u : State} {r : RegIndex} {v : Byte} (h : (u.setReg r v).reg q ≠ u.reg q) : q = r := by
    by_contra hne
    exact h (u.setReg_reg_of_ne hne v)
  cases h with
  | ldi hr => exact .inl ⟨_, hset hq ▸ hr, .inl ⟨_, .inl rfl⟩⟩
  | mul hr => exact .inl ⟨_, hset hq ▸ hr, .inl ⟨_, .inr (.inl rfl)⟩⟩
  | add hr => exact .inl ⟨_, hset hq ▸ hr, .inl ⟨_, .inr (.inr rfl)⟩⟩
  | push => exact .inr ⟨hset hq, .inl rfl⟩
  | @pop rd r hr =>
    by_cases hqr : q = r
    · exact .inl ⟨_, hqr ▸ hr, .inr rfl⟩
    · rw [State.setReg_reg_of_ne _ hqr] at hq
      exact .inr ⟨hset hq, .inr rfl⟩
  | _ => exact absurd rfl hq

/-- The stream grows by PRN and PRA alone, by one event (R18). -/
theorem Effect.out_cases (h : Effect c s i t) :
    t.out = s.out ∨ ∃ b r, regIndex c.regIndexPolicy b = some r ∧
      ((i = .prn b ∧ t.out = s.out ++ [⟨.prn, s.reg r⟩]) ∨ (i = .pra b ∧ t.out = s.out ++ [⟨.pra, s.reg r⟩])) := by
  cases h with
  | prn hr => exact .inr ⟨_, _, hr, .inl ⟨rfl, rfl⟩⟩
  | pra hr => exact .inr ⟨_, _, hr, .inr ⟨rfl, rfl⟩⟩
  | _ => exact .inl rfl

end

/-! ## What a step changes -/

/-- Settles O25: `Effect.mem_read_ne` for the instruction whose effect the step is. -/
theorem onlyPushWritesMemory : Obligations.OnlyPushWritesMemory := by
  intro s t a hst ha
  obtain rfl := step_next_iff.mp hst
  obtain ⟨hr, i, t, hd, ht, hu⟩ :=
    effect_of_stepIn_ne (·.mem.read a) (fun _ => rfl) (fun _ _ _ => by rw [State.nextPc_mem]) ha
  obtain ⟨hsp, b, r, rfl, hb, hv⟩ := ht.mem_read_ne (hu ▸ ha)
  obtain rfl := regIndex_fault_eq_some.mp hb
  exact ⟨hr, hsp, r, hd, hu.trans hv⟩

/-- Settles O27: `Effect.reg_ne` for the instruction whose effect the step is. -/
theorem registersWrittenOnlyAsNamed : Obligations.RegistersWrittenOnlyAsNamed := by
  intro s t q hst hq
  obtain rfl := step_next_iff.mp hst
  obtain ⟨-, i, t, hd, ht, hu⟩ :=
    effect_of_stepIn_ne (·.reg q) (fun _ => rfl) (fun _ _ _ => State.nextPc_reg _ _ _ _) hq
  refine ⟨i, hd, ?_⟩
  obtain ⟨x, hx, hi⟩ | hsp := ht.reg_ne (hu ▸ hq)
  · obtain rfl := regIndex_fault_eq_some.mp hx
    exact hi.elim .inl fun hpop => .inr (.inl hpop)
  · exact .inr (.inr hsp)

/-- Settles O30: `Effect.out_cases` for the instruction whose effect the step is. -/
theorem outputGrowsOnlyByPrnPra : Obligations.OutputGrowsOnlyByPrnPra := by
  intro s t hst
  obtain rfl := step_next_iff.mp hst
  by_cases ho : (stepIn cfg s).out = s.out
  · exact .inl ho
  · obtain ⟨-, i, t, hd, ht, hu⟩ :=
      effect_of_stepIn_ne State.out (fun _ => rfl) (fun _ _ _ => State.nextPc_out _ _ _) ho
    obtain h | ⟨b, r, hb, h⟩ := ht.out_cases
    · exact .inl (hu.trans h)
    · obtain rfl := regIndex_fault_eq_some.mp hb
      rw [hu]
      exact .inr ⟨r, h.imp (fun ⟨hi, h⟩ => ⟨hi ▸ hd, h⟩) fun ⟨hi, h⟩ => ⟨hi ▸ hd, h⟩⟩

/-! ## The output stream over a run -/

theorem step_out_append {s t : State} (hst : step s = .next t) :
    ∃ events, t.out = s.out ++ events ∧ events.length ≤ 1 := by
  obtain h | ⟨r, ⟨-, h⟩ | ⟨-, h⟩⟩ := outputGrowsOnlyByPrnPra s t hst
  · exact ⟨[], by simpa using h, Nat.zero_le 1⟩
  · exact ⟨_, h, le_rfl⟩
  · exact ⟨_, h, le_rfl⟩

theorem runIn_out_append (n : Nat) (s : State) :
    ∃ events, (runIn cfg n s).out = s.out ++ events ∧ events.length ≤ n := by
  induction n generalizing s with
  | zero => exact ⟨[], (List.append_nil _).symm, le_rfl⟩
  | succ n ih =>
    obtain ⟨first, hfirst, h1⟩ := step_out_append (step_eq s)
    obtain ⟨later, hlater, hn⟩ := ih (stepIn cfg s)
    refine ⟨first ++ later, ?_, ?_⟩
    · rw [runIn, hlater, hfirst, List.append_assoc]
    · rw [List.length_append]
      omega

/-- Settles O31: `runIn_out_append` for the host's run. -/
theorem outputHistoryIsKept : Obligations.OutputHistoryIsKept := by
  intro n s t hrun
  rw [← run_core_next_iff.mp hrun]
  exact runIn_out_append n s

/-! ## What reads memory -/

/-- One write into two memories: each byte is kept in both or is then the same in both. -/
theorem Memory.read_write_both (m n : Memory) (p v a : Byte) :
    ((m.write p v).read a = m.read a ∧ (n.write p v).read a = n.read a) ∨
      (m.write p v).read a = (n.write p v).read a := by
  simp only [Memory.read_write]
  split
  · exact .inr rfl
  · exact .inl ⟨rfl, rfl⟩

/-- The effect of an instruction other than POP with another memory in its place: the rest is the same, and
each byte is kept in both runs or is the same in both (R23). -/
theorem Effect.withMem {c : Config} {s t : State} {i : Instr} (h : Effect c s i t) (hi : i.mnemonic ≠ .pop)
    (m : Memory) : ∃ m', Effect c { s with mem := m } i { t with mem := m' } ∧
      ∀ a, (t.mem.read a = s.mem.read a ∧ m'.read a = m.read a) ∨ t.mem.read a = m'.read a := by
  have hkept (a : Byte) : (s.mem.read a = s.mem.read a ∧ m.read a = m.read a) ∨ s.mem.read a = m.read a :=
    .inl ⟨rfl, rfl⟩
  cases h with
  | ldi h => exact ⟨m, .ldi h, hkept⟩
  | prn h => exact ⟨m, .prn h, hkept⟩
  | pra h => exact ⟨m, .pra h, hkept⟩
  | mul h h' => exact ⟨m, .mul h h', hkept⟩
  | add h h' => exact ⟨m, .add h h', hkept⟩
  | push h => exact ⟨_, .push h, Memory.read_write_both s.mem m _ _⟩
  | pop => exact absurd rfl hi
  | cmp h h' => exact ⟨m, .cmp h h', hkept⟩
  | jmp h => exact ⟨m, .jmp h, hkept⟩
  | jeq h => exact ⟨m, .jeq h, hkept⟩
  | jne h => exact ⟨m, .jne h, hkept⟩
  | hlt => exact ⟨m, .hlt, hkept⟩

/-- Part 5 of a step neither reads nor writes memory. -/
theorem State.nextPc_withMem (s : State) (m : Memory) (ir pc0 : Byte) :
    ({ s with mem := m } : State).nextPc ir pc0 = { s.nextPc ir pc0 with mem := m } := by
  unfold State.nextPc
  split <;> rfl

/-- Settles O26: an effect is `Effect.withMem`; a raise reads the operands alone. -/
theorem onlyPopReadsMemory : Obligations.OnlyPopReadsMemory := by
  intro s i m hi
  refine ⟨_, _, exec_eq i s, exec_eq i _, ?_⟩
  obtain ⟨t, ht, hu⟩ | ⟨hp, b, hb, hu⟩ := execIn_cases cfg i s
  · obtain ⟨m', ht', hm'⟩ := ht.withMem hi m
    rw [hu, ht'.execIn_eq, State.nextPc_withMem, State.nextPc_mem]
    exact ⟨by rw [← State.nextPc_mem t], hm'⟩
  · rw [hu, execIn_of_find?_eq_some hp hb]
    exact ⟨rfl, fun _ => .inl ⟨rfl, rfl⟩⟩

end Sys2Proof.Machine
end

section
/-! SUPPORT. Proofs about many pushes and pops: the cells they name lie side by side modulo 256, so fewer than
256 of them do not meet (R75). -/

namespace Sys2Proof.Machine

/-! ## Addresses side by side, modulo 256 -/

section
variable (a : Byte)

theorem sub_one_sub_ofNat (n : Nat) : a - 1#8 - BitVec.ofNat 8 n = a - BitVec.ofNat 8 (n + 1) := by
  rw [BitVec.ofNat_add, sub_sub, add_comm]

theorem add_one_add_ofNat (n : Nat) : a + 1#8 + BitVec.ofNat 8 n = a + BitVec.ofNat 8 (n + 1) := by
  rw [BitVec.ofNat_add, add_assoc, add_comm (BitVec.ofNat 8 n)]

end

/-- Fewer than 256 cells side by side never come back to the first. -/
theorem ofNat_succ_ne_zero {n : Nat} (h : n < 255) : BitVec.ofNat 8 (n + 1) ≠ 0#8 := by
  rw [BitVec.toNat_ne, BitVec.toNat_ofNat, Nat.mod_eq_of_lt (by omega)]
  exact Nat.succ_ne_zero n

/-! ## Pushes -/

section
variable (c : Config)

theorem State.pushAll_sp (s : State) (vs : List Byte) :
    (s.pushAll c vs).sp c = s.sp c - BitVec.ofNat 8 vs.length := by
  induction vs generalizing s with
  | nil => exact (BitVec.sub_zero _).symm
  | cons v rest ih => rw [State.pushAll, ih, State.push_sp, sub_one_sub_ofNat, List.length_cons]

theorem State.pushAll_keepsRegsExcept (s : State) (vs : List Byte) :
    KeepsRegsExcept [c.spIndex] s (s.pushAll c vs) := by
  induction vs generalizing s with
  | nil => exact fun _ _ => rfl
  | cons v rest ih => exact fun q hq => (ih (s.push c v) q hq).trans (s.push_keepsRegsExcept c v q hq)

/-- The pushes write only the cells below the pointer, one for each value. -/
theorem State.pushAll_read_of_ne (s : State) (vs : List Byte) {a : Byte}
    (h : ∀ k < vs.length, a ≠ s.sp c - BitVec.ofNat 8 (k + 1)) : (s.pushAll c vs).mem.read a = s.mem.read a := by
  induction vs generalizing s with
  | nil => rfl
  | cons v rest ih =>
    rw [State.pushAll, ih, State.push_read, if_neg (h 0 (Nat.succ_pos _))]
    intro k hk
    rw [State.push_sp, sub_one_sub_ofNat]
    exact h (k + 1) (Nat.succ_lt_succ hk)

/-- The k-th value pushed is at the starting pointer minus k (R75). -/
theorem State.pushAll_read (s : State) {vs : List Byte} (hvs : vs.length < 256) {k : Nat} (hk : k < vs.length) :
    (s.pushAll c vs).mem.read (s.sp c - BitVec.ofNat 8 (k + 1)) = vs[k] := by
  induction vs generalizing s k with
  | nil => exact absurd hk (Nat.not_lt_zero k)
  | cons v rest ih =>
    rw [List.length_cons] at hvs
    cases k with
    | zero =>
      rw [State.pushAll, State.pushAll_read_of_ne, State.push_read, if_pos rfl, List.getElem_cons_zero]
      intro j hj
      rw [State.push_sp, Ne, eq_comm, sub_eq_self]
      exact ofNat_succ_ne_zero (by omega)
    | succ k =>
      rw [State.pushAll, ← sub_one_sub_ofNat, ← State.push_sp c s v, List.getElem_cons_succ]
      exact ih (s.push c v) (by omega) (Nat.lt_of_succ_lt_succ hk)

/-! ## Pops -/

/-- Pops read upwards from the pointer. -/
theorem State.popAll_fst (s : State) (n : Nat) :
    (s.popAll c n).1 = (List.range n).map fun k => s.mem.read (s.sp c + BitVec.ofNat 8 k) := by
  induction n generalizing s with
  | zero => rfl
  | succ n ih =>
    rw [State.popAll, ih, List.range_succ_eq_map, List.map_cons, List.map_map]
    refine congrArg₂ List.cons ?_ (List.map_congr_left fun k _ => ?_)
    · exact congrArg s.mem.read (BitVec.add_zero _).symm
    · rw [State.pop_sp, add_one_add_ofNat]
      rfl

theorem State.popAll_sp (s : State) (n : Nat) :
    (s.popAll c n).2.sp c = s.sp c + BitVec.ofNat 8 n := by
  induction n generalizing s with
  | zero => exact (BitVec.add_zero _).symm
  | succ n ih => rw [State.popAll, ih, State.pop_sp, add_one_add_ofNat]

theorem State.popAll_keepsRegsExcept (s : State) (n : Nat) :
    KeepsRegsExcept [c.spIndex] s (s.popAll c n).2 := by
  induction n generalizing s with
  | zero => exact fun _ _ => rfl
  | succ n ih =>
    exact fun q hq => (ih (s.pop c).2 q hq).trans (s.setReg_keepsRegsExcept c.spIndex _ q hq)

end

/-- Where the pops begin, `n` pushed values down, the k-th byte up is that of the value pushed k-th last. -/
theorem sub_ofNat_add_ofNat (a : Byte) {n k : Nat} (h : k < n) :
    a - BitVec.ofNat 8 n + BitVec.ofNat 8 k = a - BitVec.ofNat 8 (n - 1 - k + 1) := by
  have hn : n = (n - 1 - k + 1) + k := by omega
  conv_lhs => rw [hn, BitVec.ofNat_add]
  abel

/-- Settles O38: the pops read back the cells of the pushes from the last one on, and the pointer moves up as
far as it moved down. -/
theorem pushPopIsLifo : Obligations.PushPopIsLifo := by
  intro c s vs hvs
  refine ⟨?_, fun r => ?_, s.pushAll_sp c vs, fun k hk => s.pushAll_read c hvs hk⟩
  · rw [State.popAll_fst, State.pushAll_sp]
    refine List.ext_getElem (by simp) fun k hk hk' => ?_
    rw [List.length_reverse] at hk'
    rw [List.getElem_map, List.getElem_range, List.getElem_reverse, sub_ofNat_add_ofNat _ hk',
      State.pushAll_read c s hvs]
  · by_cases hr : r ∈ [c.spIndex]
    · obtain rfl := List.mem_singleton.mp hr
      exact ((s.pushAll c vs).popAll_sp c _).trans (by rw [State.pushAll_sp, sub_add_cancel]; rfl)
    · rw [State.popAll_keepsRegsExcept c _ _ r hr, s.pushAll_keepsRegsExcept c vs r hr]

end Sys2Proof.Machine
end

section
/-! SUPPORT. Proofs about memory as data, and about the configuration: the register-index policy and the opcode
bytes (R5, R40, R46). -/

namespace Sys2Proof.Machine

/-! ## Canonical memory -/

/-- What a sorted list reads at a listed address is the byte listed. -/
theorem Memory.readAt_of_mem {m : Memory} (h : m.Pairwise fun e f => e.1 < f.1) {e : Host.Cell} (he : e ∈ m) :
    m.readAt e.1 = e.2 := by
  induction m with
  | nil => cases he
  | cons f rest ih =>
    obtain ⟨hhead, htail⟩ := List.pairwise_cons.mp h
    rcases List.mem_cons.mp he with rfl | he
    · exact if_pos rfl
    · exact (if_neg (hhead e he).ne).trans (ih htail he)

/-- A byte that is not 0 can only be read from an entry of the list. -/
theorem Memory.mem_of_readAt {m : Memory} {n : Nat} (h : m.readAt n ≠ Memory.unlisted) : (n, m.readAt n) ∈ m := by
  induction m with
  | nil => exact absurd rfl h
  | cons e rest ih =>
    unfold Memory.readAt at h ⊢
    split at h
    · next he =>
      rw [if_pos he, ← he]
      exact List.mem_cons_self
    · next he =>
      rw [if_neg he]
      exact List.mem_cons_of_mem _ (ih h)

/-- The entries of a canonical memory that reads as another does are entries of the other. -/
theorem Memory.subset_of_read_eq {m n : Memory} (hm : m.wf) (h : ∀ a, m.read a = n.read a) : m ⊆ n := by
  intro e he
  obtain ⟨hlt, hne⟩ := hm.2 e he
  have hread : n.readAt e.1 = e.2 := by
    rw [← Memory.readAt_of_mem hm.1 he]
    simpa [Memory.read, Nat.mod_eq_of_lt hlt] using (h (BitVec.ofNat 8 e.1)).symm
  have hmem := Memory.mem_of_readAt (hread ▸ hne)
  rwa [hread] at hmem

/-- Settles O43: the two lists have the same entries (`Memory.subset_of_read_eq`), and both are sorted. -/
theorem canonicalMemoriesAreEqual : Obligations.CanonicalMemoriesAreEqual := by
  intro m n hm hn h
  have hirrefl : Std.Irrefl fun e f : Host.Cell => e.1 < f.1 := ⟨fun e => lt_irrefl e.1⟩
  have hasymm : Std.Asymm fun e f : Host.Cell => e.1 < f.1 := ⟨fun _ _ => lt_asymm⟩
  exact hm.1.eq_of_mem_iff hn.1 fun e =>
    ⟨fun he => Memory.subset_of_read_eq hm h he, fun he => Memory.subset_of_read_eq hn (fun a => (h a).symm) he⟩

/-! ## The policy `mask3` -/

section
variable {c : Config} {s t : State} {i : Instr}

/-- Under `mask3` an operand selects the register that its low three bits select. -/
theorem regIndex_mask3_and (b : Byte) : regIndex .mask3 (b &&& 7#8) = regIndex .mask3 b := by
  have hlow : (b &&& 7#8).toNat = b.toNat % 8 := Nat.and_two_pow_sub_one_eq_mod b.toNat 3
  simp [regIndex_mask3, hlow]

/-- An effect is that of any instruction whose register operands resolve to the same registers. -/
theorem Effect.mapRegisterOperands {f : Byte → Byte}
    (hf : ∀ b, regIndex c.regIndexPolicy (f b) = regIndex c.regIndexPolicy b) (h : Effect c s i t) :
    Effect c s (i.mapRegisterOperands f) t := by
  cases h with
  | ldi h => exact .ldi ((hf _).trans h)
  | prn h => exact .prn ((hf _).trans h)
  | pra h => exact .pra ((hf _).trans h)
  | mul h h' => exact .mul ((hf _).trans h) ((hf _).trans h')
  | add h h' => exact .add ((hf _).trans h) ((hf _).trans h')
  | push h => exact .push ((hf _).trans h)
  | pop h => exact .pop ((hf _).trans h)
  | cmp h h' => exact .cmp ((hf _).trans h) ((hf _).trans h')
  | jmp h => exact .jmp ((hf _).trans h)
  | jeq h => exact .jeq ((hf _).trans h)
  | jne h => exact .jne ((hf _).trans h)
  | hlt => exact .hlt

theorem mnemonic_mapRegisterOperands (f : Byte → Byte) (i : Instr) :
    (i.mapRegisterOperands f).mnemonic = i.mnemonic := by cases i <;> rfl

/-- Under `mask3` every instruction has its effect. -/
theorem exists_effect_of_mask3 (hp : c.regIndexPolicy = .mask3) (i : Instr) (s : State) :
    ∃ t, Effect c s i t := by
  obtain ⟨t, ht, -⟩ | ⟨hf, -⟩ := execIn_cases c i s
  · exact ⟨t, ht⟩
  · cases hp.symm.trans hf

end

/-- Settles O44: the same registers are selected (`regIndex_mask3_and`), so the effect is the same, and no
effect writes the latch. -/
theorem mask3UsesLowBits : Obligations.Mask3UsesLowBits := by
  intro c hp i s
  obtain ⟨t, ht⟩ := exists_effect_of_mask3 hp i s
  have ht' := ht.mapRegisterOperands (f := fun b => b &&& 7#8) fun b => by rw [hp, regIndex_mask3_and]
  refine ⟨?_, ?_⟩
  · rw [ht.execIn_eq, ht'.execIn_eq, mnemonic_mapRegisterOperands]
  · rw [ht.execIn_eq, State.nextPc_fault, ht.fault_eq]

/-! ## Configurations that agree -/

section
variable {c d : Config} {s t : State} {i : Instr}

/-- An operand that names a register selects it under either policy (R46). -/
theorem regIndex_eq_of_namesRegister {b : Byte} (h : namesRegister b = true) (p q : RegIndexPolicy) :
    regIndex p b = regIndex q b := by
  obtain ⟨r, rfl⟩ := registerByte_of_namesRegister h
  rw [regIndex_registerByte, regIndex_registerByte]

/-- The effect of a well-formed instruction depends only on which register is the stack pointer. -/
theorem Effect.of_spIndex_eq (h : Effect c s i t) (hsp : d.spIndex = c.spIndex) (hw : i.wellFormed = true) :
    Effect d s i t := by
  have hreg {b : Byte} {r : RegIndex} (hb : b ∈ i.registerOperands) (h : regIndex c.regIndexPolicy b = some r) :
      regIndex d.regIndexPolicy b = some r :=
    (regIndex_eq_of_namesRegister (List.all_eq_true.mp hw b hb) _ _).trans h
  have hfst {b : Byte} {l : List Byte} : b ∈ b :: l := List.mem_cons_self
  have hsnd {a b : Byte} : b ∈ [a, b] := List.mem_cons_of_mem a hfst
  cases h with
  | ldi h => exact .ldi (hreg hfst h)
  | prn h => exact .prn (hreg hfst h)
  | pra h => exact .pra (hreg hfst h)
  | mul h h' => exact .mul (hreg hfst h) (hreg hsnd h')
  | add h h' => exact .add (hreg hfst h) (hreg hsnd h')
  | push h => exact hsp ▸ .push (hreg hfst h)
  | pop h => exact hsp ▸ .pop (hreg hfst h)
  | cmp h h' => exact .cmp (hreg hfst h) (hreg hsnd h')
  | jmp h => exact .jmp (hreg hfst h)
  | jeq h => exact .jeq (hreg hfst h)
  | jne h => exact .jne (hreg hfst h)
  | hlt => exact .hlt

/-- Part 5 of a step reads no more of the opcode byte than its two fields (R59). -/
theorem State.nextPc_congr (s : State) {ir ir' : Byte} (hc : setsPcBit ir = setsPcBit ir')
    (hn : operandCountField ir = operandCountField ir') (pc0 : Byte) : s.nextPc ir pc0 = s.nextPc ir' pc0 := by
  simp [State.nextPc, sequentialPc, hc, hn]

/-- Two configurations with the same stack pointer, whose opcode bytes for the instruction have the same
fields, execute it alike if it is well formed. -/
theorem execIn_congr (hsp : d.spIndex = c.spIndex) (hw : i.wellFormed = true)
    (hc : setsPcBit (d.opc.byte i.mnemonic) = setsPcBit (c.opc.byte i.mnemonic))
    (hn : operandCountField (d.opc.byte i.mnemonic) = operandCountField (c.opc.byte i.mnemonic)) :
    execIn d i s = execIn c i s := by
  obtain ⟨t, ht, hu⟩ := execIn_of_wellFormed c s hw
  rw [hu, (ht.of_spIndex_eq hsp hw).execIn_eq, State.nextPc_congr t hc hn]

end

/-- Settles O45: `execIn_congr` with the same opcode bytes. -/
theorem policyIrrelevantWhenWellFormed : Obligations.PolicyIrrelevantWhenWellFormed := fun _ _ _ _ hw =>
  execIn_congr rfl hw rfl rfl

/-- Settles O46: `execIn_congr`, as the fields of valid opcode bytes are those of the mnemonic. -/
theorem opcodeBytesIrrelevantToMeaning : Obligations.OpcodeBytesIrrelevantToMeaning := by
  intro c m hv hm i s hw
  refine execIn_congr rfl hw ?_ (BitVec.eq_of_toNat_eq ?_)
  · exact (hm.setsPc _).trans (hv.setsPc _).symm
  · exact (hm.operandCount _).trans (hv.operandCount _).symm

end Sys2Proof.Machine
end

section
/-! SUPPORT. Proofs about the host's side: reset, load, launch and read-back (R96 to R101), and the rendering of
the output stream (R66). -/

namespace Sys2Proof.Machine

/-! ## Reset and the requests of the host -/

/-- Settles O47: the registers are `State.resetIn_reg`, the rest stands in the definition of reset. -/
theorem resetFromAnyState : Obligations.ResetFromAnyState := fun c _ =>
  ⟨State.resetIn c, rfl, State.resetIn_reg c, rfl, rfl, fun _ => rfl, rfl, rfl, rfl⟩

/-- Settles O49: the length is refused by `load` (`load_cases`), the phase by `serve`. -/
theorem refusedLoads : Obligations.RefusedLoads := by
  refine ⟨fun bytes base s hlen => ?_, fun c bytes base h => ⟨_, rfl, rfl⟩⟩
  obtain ⟨hle, -⟩ | ⟨-, h⟩ := load_cases bytes base s
  · exact absurd hle (Nat.not_le.mpr hlen)
  · exact h

theorem readBack_of_running {s : State} (h : s.run = .running) : readBack s = none := if_pos h

theorem readBack_of_ended {s : State} (h : Ended s) : readBack s = some ⟨s.regs, s.pc, s.fl, s.mem⟩ := if_neg h

/-- Settles O51: `readBack_of_running` and `readBack_of_ended`; a run has ended or it has not. -/
theorem readBackAfterRun : Obligations.ReadBackAfterRun := by
  refine fun s => ⟨⟨fun h => ?_, readBack_of_running⟩, readBack_of_ended⟩
  by_contra hr
  simp [readBack_of_ended hr] at h

/-! ## The image in memory -/

/-- A load leaves every cell that the image does not cover. -/
theorem State.storeImage_read_of_ne (s : State) (base : Byte) (bytes : List Byte) {a : Byte}
    (h : ∀ k < bytes.length, a ≠ base + BitVec.ofNat 8 k) :
    (s.storeImage base bytes).mem.read a = s.mem.read a := by
  induction bytes generalizing s base with
  | nil => rfl
  | cons b rest ih =>
    have hbase : a ≠ base := by simpa using h 0 (Nat.succ_pos _)
    rw [State.storeImage, ih, State.store_read, if_neg hbase]
    intro k hk
    rw [add_one_add_ofNat]
    exact h (k + 1) (Nat.succ_lt_succ hk)

/-- At most 256 bytes go to distinct cells, so each is still there after the load. -/
theorem State.storeImage_read (s : State) (base : Byte) {bytes : List Byte} (hlen : bytes.length ≤ 256) {k : Nat}
    (hk : k < bytes.length) : (s.storeImage base bytes).mem.read (base + BitVec.ofNat 8 k) = bytes[k] := by
  induction bytes generalizing s base k with
  | nil => exact absurd hk (Nat.not_lt_zero k)
  | cons b rest ih =>
    rw [List.length_cons] at hlen
    cases k with
    | zero =>
      have hbase : base + BitVec.ofNat 8 0 = base := BitVec.add_zero base
      rw [hbase, State.storeImage, State.storeImage_read_of_ne, State.store_read, if_pos rfl,
        List.getElem_cons_zero]
      intro j hj
      rw [add_one_add_ofNat, Ne, eq_comm, add_eq_left]
      exact ofNat_succ_ne_zero (by omega)
    | succ k =>
      rw [← add_one_add_ofNat]
      exact ih (s.store base b) (base + 1#8) (by omega) (Nat.lt_of_succ_lt_succ hk)

/-- Settles O48: `State.storeImage_read`, `State.storeImage_read_of_ne` and `State.storeImage_frame`. -/
theorem loadWritesImage : Obligations.LoadWritesImage := fun bytes base s hlen =>
  ⟨_, load_next_iff.mpr ⟨hlen, rfl⟩, fun _ hk => s.storeImage_read base hlen hk,
    fun _ => s.storeImage_read_of_ne base bytes, s.storeImage_frame base bytes⟩

/-- Settles O50: `loadWritesImage` at base 0 from reset, whose cells are 0. -/
theorem launchState : Obligations.LaunchState := by
  intro c bytes hbase hlen
  obtain ⟨t, ht, hcovered, hother, hframe⟩ := loadWritesImage bytes c.programBase (State.resetIn c) hlen
  rw [hbase] at hcovered hother
  simp only [BitVec.zero_add] at hcovered hother
  refine ⟨t, ht, fun a => ?_, hframe⟩
  by_cases ha : a.toNat < bytes.length
  · rw [List.getD_eq_getElem _ _ ha]
    simpa using hcovered a.toNat ha
  · rw [List.getD_eq_default _ _ (Nat.not_lt.mp ha)]
    refine hother a fun k hk hak => ha ?_
    rwa [hak, BitVec.toNat_ofNat, Nat.mod_eq_of_lt (by omega)]

/-! ## Rendering -/

theorem asciiDigit_toNat {d : Nat} (h : d < 10) : (asciiDigit d).toNat = 0x30 + d := by
  rw [asciiDigit, BitVec.toNat_ofNat, Nat.mod_eq_of_lt (by omega)]

/-- `Decimal` writes the decimal digits of its value, the most significant first, and that is no zero unless the
value is 0 (R66). -/
theorem decimal_eq_map_digits (v : Byte) : ∃ ds : List Nat, decimal v = ds.map asciiDigit ∧
    (∀ d ∈ ds, d < 10) ∧ ds.foldl (fun n d => 10 * n + d) 0 = v.toNat ∧ (ds.head? = some 0 → v.toNat = 0) := by
  have hv : v.toNat < 256 := v.isLt
  unfold decimal
  generalize v.toNat = n at hv ⊢
  by_cases h10 : n < 10
  · exact ⟨[n], if_pos h10, by simpa using h10, by simp, by simp⟩
  · by_cases h100 : n < 100
    · refine ⟨[n / 10, n % 10], by simp [h10, h100], ?_, ?_, ?_⟩ <;> simp <;> omega
    · refine ⟨[n / 100, n / 10 % 10, n % 10], by simp [h10, h100], ?_, ?_, ?_⟩ <;> simp <;> omega

/-- Settles O52: the digits are those of `decimal_eq_map_digits`, each 0x30 above its value. -/
theorem decimalIsFaithful : Obligations.DecimalIsFaithful := by
  refine ⟨rfl, fun v => ?_⟩
  obtain ⟨ds, hds, hlt, hvalue, hhead⟩ := decimal_eq_map_digits v
  rw [hds]
  refine ⟨?_, ?_, ?_⟩
  · rw [List.forall_mem_map]
    intro d hd
    have := hlt d hd
    rw [asciiDigit_toNat this]
    omega
  · rw [List.foldl_map, ← hvalue]
    refine List.foldl_ext _ _ _ fun n d hd => ?_
    rw [asciiDigit_toNat (hlt d hd), Nat.add_sub_cancel_left]
  · cases ds with
    | nil => simp
    | cons d rest =>
      intro h
      have h30 : (asciiDigit d).toNat = 0x30 := congrArg BitVec.toNat (Option.some.inj h)
      rw [asciiDigit_toNat (hlt d List.mem_cons_self)] at h30
      exact BitVec.eq_of_toNat_eq (hhead (congrArg some (by omega)))

theorem render_append (events later : List OutEvent) :
    render (events ++ later) = render events ++ render later := by
  induction events with
  | nil => rfl
  | cons e rest ih => simp [render, ih]

/-- Settles O53: the stream grows at its end (`outputHistoryIsKept`), and rendering follows (`render_append`). -/
theorem renderIsIncremental : Obligations.RenderIsIncremental := by
  intro n s t hrun
  obtain ⟨events, hevents, -⟩ := outputHistoryIsKept n s t hrun
  exact ⟨events, hevents, by rw [hevents, render_append]⟩

end Sys2Proof.Machine
end
